-- ==== Sys2Proof/Config.lean ====
section
/-! DEFINITION. Config: the implementation parameters of the codec (rule R5), each a fixed number.

The parameters the spec leaves OPEN lie outside the block and no rule of it uses them, so none has a constant here:
`WORD_BYTE_ORDER` (R41, D11), `STRUCT_BUS_BINDING` (R124, D8), `ON_DECODE_ERROR` (R208, D15). The one value the spec calls
unspecified that a signal of the block can carry, `err_field` of two error kinds (R205), is an argument of the definition that
reads it (`Sys2Proof.Machine.errField`), never a number chosen here. `OPCODE_MAP` and `FUNCT_MAP` (D2, D3) are the tables
`opcodeValue` and `functValue` of Decode.lean. -/

namespace Sys2Proof.Config

/-- `WORD_W`: the width of an instruction word. -/
def wordWidth : Nat := 32

/-- `OPC_W`: the width of the primary opcode field. -/
def opcodeWidth : Nat := 6

/-- `REG_W`: the width of a register index and of a register slot. -/
def regWidth : Nat := 4

/-- `FUNCT_W`: the width of the function code. -/
def functWidth : Nat := 14

/-- `IMM_W`: the width of the register-immediate field. The spec's decision D1 (conflict C1): DESIGN CHOICE, log entry 10. -/
def immWidth : Nat := 14

/-- `JOFF_W`: the width of the jump offset field. -/
def joffWidth : Nat := 26

/-- `N_REGS`. -/
def numRegs : Nat := 16

/-- `N_OPCODES`. -/
def numOpcodes : Nat := 11

/-- `N_RESERVED_OPCODES`. -/
def numReservedOpcodes : Nat := 53

/-- `N_FUNCT`. -/
def numFunct : Nat := 7

/-- `N_VARIANTS`. -/
def numVariants : Nat := 17

end Sys2Proof.Config
end

