-- ==== Sys2Proof/Word.lean ====
section
/-! DEFINITION. Word: the types of rule R9 that an instruction is made of: words, register identifiers, and the containers in
which the structured side carries an immediate and a jump offset (R125). -/

namespace Sys2Proof

/-- One 32-bit instruction word; bit 31 is the most significant bit of the opcode (R6, R60). -/
abbrev Word := BitVec 32

/-- The signed 16-bit container of a register-immediate operand (R125, D13). Its range is that of 14 bits (R81). -/
abbrev Imm := BitVec 16

/-- The signed 32-bit container of a jump offset (R125, D13). Its range is that of 26 bits (R81). -/
abbrev JOff := BitVec 32

/-- The 16 register identifiers (R22, R23). They are names with an index: the block holds no register contents (R24). -/
inductive Reg where
  | r0 | r1 | r2 | r3 | r4 | r5 | r6 | r7 | r8 | r9 | r10 | r11 | r12 | r13 | r14 | r15
  deriving DecidableEq, Repr

end Sys2Proof
end

