-- ==== Sys2Proof/Syntax.lean ====
section
/-! DEFINITION. Syntax: the Instruction value, "a closed tagged union of 17 instruction forms, each naming its operand fields by
role" (R82). Equality is structural (D16). -/

namespace Sys2Proof

/-- The 17 variants of rule R82, one constructor per row of the opcode table, operands in the order rule R82 lists them. -/
inductive Instr where
  /-- `Add`: rd, rs1, rs2 (R141). -/
  | add (rd rs1 rs2 : Reg)
  /-- `Sub`: rd, rs1, rs2 (R142). -/
  | sub (rd rs1 rs2 : Reg)
  /-- `And`: rd, rs1, rs2 (R143). -/
  | and (rd rs1 rs2 : Reg)
  /-- `Or`: rd, rs1, rs2 (R144). -/
  | or (rd rs1 rs2 : Reg)
  /-- `Xor`: rd, rs1, rs2 (R145). -/
  | xor (rd rs1 rs2 : Reg)
  /-- `Shl`: rd, rs1, rs2 (R146). -/
  | shl (rd rs1 rs2 : Reg)
  /-- `Shr`: rd, rs1, rs2 (R147). -/
  | shr (rd rs1 rs2 : Reg)
  /-- `Addi`: rd, rs1, imm (R161). -/
  | addi (rd rs1 : Reg) (imm : Imm)
  /-- `Load`: rd, base, offset (R162). -/
  | load (rd base : Reg) (offset : Imm)
  /-- `Store`: src, base, offset; src is the register whose value is stored (R163). -/
  | store (src base : Reg) (offset : Imm)
  /-- `Beq`: rs1, rs2, offset (R164). -/
  | beq (rs1 rs2 : Reg) (offset : Imm)
  /-- `Bne`: rs1, rs2, offset (R165). -/
  | bne (rs1 rs2 : Reg) (offset : Imm)
  /-- `Blt`: rs1, rs2, offset (R166). -/
  | blt (rs1 rs2 : Reg) (offset : Imm)
  /-- `Bge`: rs1, rs2, offset (R167). -/
  | bge (rs1 rs2 : Reg) (offset : Imm)
  /-- `Ecall`: imm, no register (R168). -/
  | ecall (imm : Imm)
  /-- `Jal`: offset, no register (R191). -/
  | jal (offset : JOff)
  /-- `Jump`: offset, no register (R192). -/
  | jump (offset : JOff)
  deriving DecidableEq, Repr

end Sys2Proof
end

