-- ==== Sys2Proof/WellFormed.lean ====
section
/-! DEFINITION. WellFormed: the invariant of an Instruction value (R81). The registers are in range by their type; an immediate
and a jump offset are checked against the signed range of their field. -/

namespace Sys2Proof

/-- R81 (c): `-2^13 <= v <= 2^13 - 1`. The range is the spec's decision D1 (log entry 10). -/
def immInRange (v : Imm) : Bool := decide (-8192 ≤ v.toInt ∧ v.toInt ≤ 8191)

/-- R81 (b): `-2^25 <= o <= 2^25 - 1`. -/
def joffInRange (o : JOff) : Bool := decide (-33554432 ≤ o.toInt ∧ o.toInt ≤ 33554431)

/-- The check of rule R81 on each variant's fields. -/
def wellFormed : Instr → Bool
  | .add _ _ _ | .sub _ _ _ | .and _ _ _ | .or _ _ _ | .xor _ _ _ | .shl _ _ _ | .shr _ _ _ => true
  | .addi _ _ v | .load _ _ v | .store _ _ v => immInRange v
  | .beq _ _ v | .bne _ _ v | .blt _ _ v | .bge _ _ v => immInRange v
  | .ecall v => immInRange v
  | .jal o | .jump o => joffInRange o

/-- A well-formed Instruction (R10, R81). -/
abbrev WellFormed (i : Instr) : Prop := wellFormed i = true

end Sys2Proof
end

