-- ==== Sys2Proof/Decode.lean ====
section
/-! DEFINITION. Decode: the pure functions of the block. Catalogs (R100 to R102), the field multiplexer in both directions (R103,
R116), the decoder with its classified errors (R109 to R115, R122), and after it the encoder (R104, R123), written from the same
tables. Every function here is total and depends on nothing but its argument (R20, R120). -/

namespace Sys2Proof

/-! ## Types of the block -/

/-- The seven operations a function code selects (R66). -/
inductive RrOp where
  | add | sub | and | or | xor | shl | shr
  deriving DecidableEq, Repr

/-- The eight register-immediate opcode identifiers (R64), the type of port `fm_op` (R124). -/
inductive RiOpcode where
  | addi | load | store | beq | bne | blt | bge | ecall
  deriving DecidableEq, Repr

/-- The eleven opcode identifiers of the catalog (R64), arranged by the decoding path each selects (R65, R110). -/
inductive Opcode where
  /-- `OP_RR`: the register-register path. -/
  | rr
  /-- The eight register-immediate opcodes. -/
  | ri (p : RiOpcode)
  /-- `OP_JAL`: the jump path. -/
  | jal
  /-- `OP_JUMP`: the jump path. -/
  | jump
  deriving DecidableEq, Repr

/-- The three register slots an error can name: `"rd"`, `"rs1"`, `"rs2"` (R203, D5). -/
inductive Slot where
  | rd | rs1 | rs2
  deriving DecidableEq, Repr

/-- `DecodeError`, the four reasons of rule R200. Each carries the offending raw value at the width of its field (D14). -/
inductive DecodeError where
  /-- R201: the 6-bit primary opcode matches no instruction family. -/
  | reservedOpcode (raw : BitVec 6)
  /-- R202: the 14-bit function code matches no operation. -/
  | reservedFunct (raw : BitVec 14)
  /-- R203: a slot that must hold the zero register's index holds another value. -/
  | reservedField (field : Slot) (value : BitVec 4)
  /-- R204: defined, and never produced (R114). -/
  | invalidRegister (field : Slot) (value : BitVec 4)
  deriving DecidableEq, Repr

/-- `Result` (R9): what the decoder and the reverse multiplexer deliver, `Ok(i)` or `Err(e)`. -/
inductive Result where
  | ok (i : Instr)
  | err (e : DecodeError)
  deriving DecidableEq, Repr

/-- The record of raw fields that the forward multiplexer delivers (R103). -/
inductive Fields where
  /-- `Slotted(op, a, b, c, low)`: opcode, rd-slot, rs1-slot, rs2-slot, low field. -/
  | slotted (op : BitVec 6) (a b c : BitVec 4) (low : BitVec 14)
  /-- `Long(op, off)`: opcode, 26-bit offset. -/
  | long (op : BitVec 6) (off : BitVec 26)
  deriving DecidableEq, Repr

/-! ## The fields of a word (R61 to R63, R67) -/

/-- `w[31:26]`. -/
def opcodeField (w : Word) : BitVec 6 := w.extractLsb' 26 6
/-- `w[25:22]`, the rd-slot. -/
def rdSlot (w : Word) : BitVec 4 := w.extractLsb' 22 4
/-- `w[21:18]`, the rs1-slot. -/
def rs1Slot (w : Word) : BitVec 4 := w.extractLsb' 18 4
/-- `w[17:14]`, the rs2-slot. -/
def rs2Slot (w : Word) : BitVec 4 := w.extractLsb' 14 4
/-- `w[13:0]`, the function code of an RR word and the immediate of an RI word. -/
def lowField (w : Word) : BitVec 14 := w.extractLsb' 0 14
/-- `w[25:0]`, the offset of a J word. -/
def offField (w : Word) : BitVec 26 := w.extractLsb' 0 26

/-! ## Signed fields and their containers (R7, R68, R69, R108, R113, R125) -/

/-- `trunc_14` of an immediate: the low 14 bits of its container; higher bits are dropped (R107, R125). -/
def truncImm (v : Imm) : BitVec 14 := v.extractLsb' 0 14

/-- `trunc_26` of a jump offset: "bits above position 25 are dropped" (R69, R107). -/
def truncJOff (o : JOff) : BitVec 26 := o.extractLsb' 0 26

/-- `sext_16` of the immediate field, by the shift method in a 16-bit container: left by 2, arithmetic right by 2 (R113). -/
def sextImm (low : BitVec 14) : Imm := (low.setWidth 16 <<< 2).sshiftRight 2

/-- `sext_32` of the low 26 bits of a J word: left by 6, arithmetic right by 6 (R113). -/
def sextJOff (w : Word) : JOff := (w <<< 6).sshiftRight 6

/-! ## Catalogs -/

/-- `index_of` (R100): `idx(Rn) = n` (the table of R23; identifiers other than R1, R2, R3 by D4). -/
def indexOf : Reg → BitVec 4
  | .r0 => 0 | .r1 => 1 | .r2 => 2 | .r3 => 3 | .r4 => 4 | .r5 => 5 | .r6 => 6 | .r7 => 7
  | .r8 => 8 | .r9 => 9 | .r10 => 10 | .r11 => 11 | .r12 => 12 | .r13 => 13 | .r14 => 14 | .r15 => 15

/-- `register_of` (R100): total, every 4-bit pattern is a valid register. -/
def registerOf (n : BitVec 4) : Reg :=
  match n.toNat with
  | 0 => .r0 | 1 => .r1 | 2 => .r2 | 3 => .r3 | 4 => .r4 | 5 => .r5 | 6 => .r6 | 7 => .r7
  | 8 => .r8 | 9 => .r9 | 10 => .r10 | 11 => .r11 | 12 => .r12 | 13 => .r13 | 14 => .r14 | _ => .r15

/-- `opcode_value` (R101), the table of R64. 0x00 and 0x08 are the source's; the other nine are the spec's decision D2
(log entry 11). -/
def opcodeValue : Opcode → BitVec 6
  | .rr => 0x00
  | .ri .addi => 0x01
  | .ri .load => 0x02
  | .ri .store => 0x03
  | .ri .beq => 0x04
  | .ri .bne => 0x05
  | .ri .blt => 0x06
  | .ri .bge => 0x07
  | .jal => 0x08
  | .jump => 0x09
  | .ri .ecall => 0x0A

/-- `opcode_of` (R101): `none` for the 53 reserved values 0x0B to 0x3F. -/
def opcodeOf (v : BitVec 6) : Option Opcode :=
  match v.toNat with
  | 0x00 => some .rr
  | 0x01 => some (.ri .addi)
  | 0x02 => some (.ri .load)
  | 0x03 => some (.ri .store)
  | 0x04 => some (.ri .beq)
  | 0x05 => some (.ri .bne)
  | 0x06 => some (.ri .blt)
  | 0x07 => some (.ri .bge)
  | 0x08 => some .jal
  | 0x09 => some .jump
  | 0x0A => some (.ri .ecall)
  | _ => none

/-- `funct_value` (R102), the table of R66. 1 for `Add` is the source's; the other six are the spec's decision D3
(log entry 12). -/
def functValue : RrOp → BitVec 14
  | .add => 0x0001
  | .sub => 0x0002
  | .and => 0x0003
  | .or => 0x0004
  | .xor => 0x0005
  | .shl => 0x0006
  | .shr => 0x0007

/-- `funct_of` (R102): `none` outside 0x0001 to 0x0007. -/
def functOf (f : BitVec 14) : Option RrOp :=
  match f.toNat with
  | 0x0001 => some .add
  | 0x0002 => some .sub
  | 0x0003 => some .and
  | 0x0004 => some .or
  | 0x0005 => some .xor
  | 0x0006 => some .shl
  | 0x0007 => some .shr
  | _ => none

/-- The RR variant `V{rd, rs1, rs2}` of an operation `V` (R111, R140). -/
def rrInstr : RrOp → Reg → Reg → Reg → Instr
  | .add, rd, rs1, rs2 => .add rd rs1 rs2
  | .sub, rd, rs1, rs2 => .sub rd rs1 rs2
  | .and, rd, rs1, rs2 => .and rd rs1 rs2
  | .or, rd, rs1, rs2 => .or rd rs1 rs2
  | .xor, rd, rs1, rs2 => .xor rd rs1 rs2
  | .shl, rd, rs1, rs2 => .shl rd rs1 rs2
  | .shr, rd, rs1, rs2 => .shr rd rs1 rs2

/-! ## The field multiplexer, reverse direction (R112, R116) -/

/-- One must-be-zero check: the slot is compared with index 0, the zero register's (R71, R112). -/
def requireZero (field : Slot) (value : BitVec 4) : Option DecodeError :=
  if value = 0 then none else some (.reservedField field value)

/-- The must-be-zero checks of rule R112, by opcode, in the order written there (for `Ecall` rd, rs1, rs2: D6, log entry 13). -/
def zeroSlotError (p : RiOpcode) (a b c : BitVec 4) : Option DecodeError :=
  match p with
  | .addi | .load | .store => requireZero .rs2 c
  | .beq | .bne | .blt | .bge => requireZero .rd a
  | .ecall => (requireZero .rd a).or ((requireZero .rs1 b).or (requireZero .rs2 c))

/-- `unplace` (R116): the used slots back to their roles; the immediate field into its container (R125). -/
def unplace (p : RiOpcode) (a b c : BitVec 4) (v : BitVec 14) : Instr :=
  match p with
  | .addi => .addi (registerOf a) (registerOf b) (sextImm v)
  | .load => .load (registerOf a) (registerOf b) (sextImm v)
  | .store => .store (registerOf a) (registerOf b) (sextImm v)
  | .beq => .beq (registerOf b) (registerOf c) (sextImm v)
  | .bne => .bne (registerOf b) (registerOf c) (sextImm v)
  | .blt => .blt (registerOf b) (registerOf c) (sextImm v)
  | .bge => .bge (registerOf b) (registerOf c) (sextImm v)
  | .ecall => .ecall (sextImm v)

/-- Port `fm_result` (R124): the first failing check of R112, else `Ok(unplace(...))`. -/
def fmResult (p : RiOpcode) (a b c : BitVec 4) (v : BitVec 14) : Result :=
  match zeroSlotError p a b c with
  | some e => .err e
  | none => .ok (unplace p a b c v)

/-! ## The decoder -/

/-- The register-register path (R111). -/
def decodeRr (w : Word) : Result :=
  match functOf (lowField w) with
  | none => .err (.reservedFunct (lowField w))
  | some op => .ok (rrInstr op (registerOf (rdSlot w)) (registerOf (rs1Slot w)) (registerOf (rs2Slot w)))

/-- The register-immediate path (R112): the raw fields through the reverse multiplexer. -/
def decodeRi (p : RiOpcode) (w : Word) : Result :=
  fmResult p (rdSlot w) (rs1Slot w) (rs2Slot w) (lowField w)

/-- `decode` (R122): total; the opcode check is the first (R109), then one of three paths (R110). -/
def decode (w : Word) : Result :=
  match opcodeOf (opcodeField w) with
  | none => .err (.reservedOpcode (opcodeField w))
  | some .rr => decodeRr w
  | some (.ri p) => decodeRi p w
  | some .jal => .ok (.jal (sextJOff w))
  | some .jump => .ok (.jump (sextJOff w))

/-! ## The encoder -/

/-- `place` (R103): the forward direction of the field multiplexer, unused slots filled with the zero register's index. -/
def place : Instr → Fields
  | .add rd rs1 rs2 => .slotted 0x00 (indexOf rd) (indexOf rs1) (indexOf rs2) 0x0001
  | .sub rd rs1 rs2 => .slotted 0x00 (indexOf rd) (indexOf rs1) (indexOf rs2) 0x0002
  | .and rd rs1 rs2 => .slotted 0x00 (indexOf rd) (indexOf rs1) (indexOf rs2) 0x0003
  | .or rd rs1 rs2 => .slotted 0x00 (indexOf rd) (indexOf rs1) (indexOf rs2) 0x0004
  | .xor rd rs1 rs2 => .slotted 0x00 (indexOf rd) (indexOf rs1) (indexOf rs2) 0x0005
  | .shl rd rs1 rs2 => .slotted 0x00 (indexOf rd) (indexOf rs1) (indexOf rs2) 0x0006
  | .shr rd rs1 rs2 => .slotted 0x00 (indexOf rd) (indexOf rs1) (indexOf rs2) 0x0007
  | .addi rd rs1 imm => .slotted 0x01 (indexOf rd) (indexOf rs1) 0 (truncImm imm)
  | .load rd base offset => .slotted 0x02 (indexOf rd) (indexOf base) 0 (truncImm offset)
  | .store src base offset => .slotted 0x03 (indexOf src) (indexOf base) 0 (truncImm offset)
  | .beq rs1 rs2 offset => .slotted 0x04 0 (indexOf rs1) (indexOf rs2) (truncImm offset)
  | .bne rs1 rs2 offset => .slotted 0x05 0 (indexOf rs1) (indexOf rs2) (truncImm offset)
  | .blt rs1 rs2 offset => .slotted 0x06 0 (indexOf rs1) (indexOf rs2) (truncImm offset)
  | .bge rs1 rs2 offset => .slotted 0x07 0 (indexOf rs1) (indexOf rs2) (truncImm offset)
  | .ecall imm => .slotted 0x0A 0 0 0 (truncImm imm)
  | .jal offset => .long 0x08 (truncJOff offset)
  | .jump offset => .long 0x09 (truncJOff offset)

/-- `pack` (R104): the fields side by side, the opcode most significant. -/
def pack : Fields → Word
  | .slotted op a b c low => op ++ a ++ b ++ c ++ low
  | .long op off => op ++ off

/-- `encode(i) = pack(place(i))` (R104, R123): total, no error output (R106); an ill-formed value is truncated (R107). -/
def encode (i : Instr) : Word := pack (place i)

/-! ## Opcode-table words -/

/-- The 32-bit word whose low `nbits` bits are those of `w` and whose other bits are 0. An instruction is one word (R60), so it
has no byte order of its own (R41) and bit 0 of the table is bit 0 of the word. -/
def wordOfBits (nbits w : Nat) : Word := BitVec.ofNat 32 (w % 2 ^ nbits)

/-- The instruction this decoder reads from an opcode-table word; `none` where it answers an error. -/
def decodeTableWord (nbits w : Nat) : Option Instr :=
  match decode (wordOfBits nbits w) with
  | .ok i => some i
  | .err _ => none

end Sys2Proof
end

