-- ==== Sys2Proof/Machine/State.lean ====
section
/-! DEFINITION. Machine/State: what stands at the block's ports and on its caller's side.

The block itself holds no state (R20, R24, R25, R27 to R31, R33): no register contents, program counter, flag, control register or
memory. State therefore holds only (a) the values presented at the ports of rule R124 with the outputs delivered for them, and
(b) the caller's sequences of decision D17: the inputs still to be presented and the outputs recorded (log entries 2, 3, 6). -/

namespace Sys2Proof.Machine

/-- The forward ports of the field multiplexer (R124). -/
structure MuxForward where
  /-- `fm_insn`, in. -/
  insn : Instr
  /-- `fm_fields`, out. -/
  fields : Fields
  deriving DecidableEq, Repr

/-- The reverse ports of the field multiplexer (R124). -/
structure MuxReverse where
  /-- `fm_op`, in: one of the 8 RI identifiers. -/
  op : RiOpcode
  /-- `fm_a`, in: the raw rd-slot. -/
  a : BitVec 4
  /-- `fm_b`, in: the raw rs1-slot. -/
  b : BitVec 4
  /-- `fm_c`, in: the raw rs2-slot. -/
  c : BitVec 4
  /-- `fm_v`, in: the immediate field, read as a signed 14-bit value. -/
  v : BitVec 14
  /-- `fm_result`, out. -/
  result : Result
  deriving DecidableEq, Repr

/-- The ports of the instruction encoder (R124). -/
structure EncoderPorts where
  /-- `enc_insn`, in. -/
  insn : Instr
  /-- `enc_word`, out. -/
  word : Word
  deriving DecidableEq, Repr

/-- The ports of the instruction decoder (R124): (`dec_ok`, `dec_insn`, `dec_err`) as the single value `Result`, "so that the
unspecified halves cannot be read" (D18). -/
structure DecoderPorts where
  /-- `dec_word`, in. -/
  word : Word
  /-- `dec_ok`, `dec_insn`, `dec_err`, out. -/
  result : Result
  deriving DecidableEq, Repr

/-- One use of the block by its caller (R10, R124, R232). -/
inductive Presentation where
  /-- A word at `dec_word`. -/
  | word (w : Word)
  /-- An Instruction at `enc_insn`; an ill-formed one is accepted and truncated (R107). -/
  | insn (i : Instr)
  /-- An Instruction at `fm_insn`, the multiplexer in isolation. -/
  | place (i : Instr)
  /-- Raw fields at `fm_op`, `fm_a`, `fm_b`, `fm_c`, `fm_v`, the multiplexer in isolation. -/
  | unplace (op : RiOpcode) (a b c : BitVec 4) (v : BitVec 14)
  deriving DecidableEq, Repr

/-- Reasons for the machine to stop with a fault. There are none: the encoder is total (R106), the decoder classifies every word
(R115) and "nothing in the block is ever undefined on an input" (C2). A decode error is a returned value (R208), not a fault.
Safe and unsafe do not arise: nobody raises one. -/
inductive Fault where
  deriving DecidableEq, Repr

/-- Reasons for an instruction to have no meaning. -/
inductive Refusal where
  /-- Raised by an arm of `exec` for an instruction not modelled yet; no arm raises it now. Safe: the machine stops. -/
  | notModelled (mnemonic : String)
  deriving DecidableEq, Repr

/-- The ports and the caller's sequences. A port bundle is `none` while nothing has been presented at it (R230: an input that is
undefined; log entry 6). -/
structure State where
  /-- Forward ports of `field_multiplexer` (R124). -/
  fmForward : Option MuxForward
  /-- Reverse ports of `field_multiplexer` (R124). -/
  fmReverse : Option MuxReverse
  /-- Ports of `instruction_encoder` (R124). -/
  enc : Option EncoderPorts
  /-- Ports of `instruction_decoder` (R124). -/
  dec : Option DecoderPorts
  /-- The caller's presentations not yet made, oldest first (D17). -/
  pending : List Presentation
  /-- The caller's record of decoder results, oldest first (D17). -/
  results : List Result
  /-- The caller's record of encoder outputs, oldest first (D17). -/
  encoded : List Word
  deriving DecidableEq, Repr

/-- After reset: there is nothing to reset (R33, R231), no input is presented (R230) and no sequence has begun. -/
def State.reset : State where
  fmForward := none
  fmReverse := none
  enc := none
  dec := none
  pending := []
  results := []
  encoded := []

end Sys2Proof.Machine
end

