-- ==== Sys2Proof/Machine/Ops.lean ====
section
/-! DEFINITION. Machine/Ops: the named operations over the ports. Each presents one input at one sub-block and delivers the outputs
that go with it; ports it does not drive keep what is presented there (log entry 5). -/

namespace Sys2Proof.Machine

/-- The caller makes its oldest presentation: the rest remains. -/
def withPending (rest : List Presentation) (s : State) : State := { s with pending := rest }

/-- The forward multiplexer is presented `i`: `fm_fields = place(fm_insn)` (R103, R124). -/
def presentForward (i : Instr) (s : State) : State :=
  { s with fmForward := some { insn := i, fields := place i } }

/-- The reverse multiplexer is presented raw fields: `fm_result` by R112 and R116 (R124). -/
def presentReverse (op : RiOpcode) (a b c : BitVec 4) (v : BitVec 14) (s : State) : State :=
  { s with fmReverse := some { op := op, a := a, b := b, c := c, v := v, result := fmResult op a b c v } }

/-- The encoder's ports hold `i` and its word `w`, and the caller records the word (R124, D17). -/
def deliverWord (i : Instr) (w : Word) (s : State) : State :=
  { s with enc := some { insn := i, word := w }, encoded := s.encoded ++ [w] }

/-- The encoder is presented `i`, whose instruction rule gives the word `w`: the forward multiplexer, which the encoder uses
(R2), places `i`, and `enc_word` is `w`. It always succeeds (R106). -/
def driveEncoder (i : Instr) (w : Word) (s : State) : Host.Outcome State Fault Refusal :=
  .next (deliverWord i w (presentForward i s))

/-- The decoder uses the reverse multiplexer for a register-immediate word and for no other (R2, R110, R112, R116). -/
def driveReverse (w : Word) (s : State) : State :=
  match opcodeOf (opcodeField w) with
  | some (.ri p) => presentReverse p (rdSlot w) (rs1Slot w) (rs2Slot w) (lowField w) s
  | _ => s

/-- The decoder's ports hold `w` and its result `r`, and the caller records the result (R124, D17). -/
def deliverResult (w : Word) (r : Result) (s : State) : State :=
  { s with dec := some { word := w, result := r }, results := s.results ++ [r] }

/-- The decoder accepts `w`: `dec_ok = 1` and `dec_insn = i` (R124). -/
def acceptWord (w : Word) (i : Instr) (s : State) : State := deliverResult w (.ok i) (driveReverse w s)

/-- `raise e` in the decoder (R8, R208), the block's only exceptional behaviour, shared by every error: `dec_ok = 0` and
`dec_err = e`. It saves no state, changes no mode, transfers control nowhere and leaves nothing to return from (R208, R209). -/
def raiseError (w : Word) (e : DecodeError) (s : State) : State := deliverResult w (.err e) (driveReverse w s)

end Sys2Proof.Machine
end

