-- ==== Sys2Proof/Machine/Operands.lean ====
section
/-! DEFINITION. Machine/Operands: the operand forms, one for each row of the placement table (R70) and for the RR and J formats,
as the shift-and-or expressions in which the instruction rules R141 to R147, R161 to R168, R191 and R192 write their words. -/

namespace Sys2Proof.Machine

/-- `value << at` for a field of any width inside the word (R104). -/
def fieldAt {n : Nat} (value : BitVec n) (at_ : Nat) : Word := value.setWidth 32 <<< at_

/-- R140: `(idx(rd) << 22) | (idx(rs1) << 18) | (idx(rs2) << 14) | F` under opcode 0x00. -/
def rrWord (funct : BitVec 14) (rd rs1 rs2 : Reg) : Word :=
  fieldAt (indexOf rd) 22 ||| fieldAt (indexOf rs1) 18 ||| fieldAt (indexOf rs2) 14 ||| fieldAt funct 0

/-- R161 to R163: the first operand in the rd-slot, source or base in the rs1-slot, rs2-slot zero, immediate low. -/
def riTwoWord (op : BitVec 6) (first second : Reg) (imm : Imm) : Word :=
  fieldAt op 26 ||| fieldAt (indexOf first) 22 ||| fieldAt (indexOf second) 18 ||| fieldAt (truncImm imm) 0

/-- R164 to R167: rd-slot zero, source 1 in the rs1-slot, source 2 in the rs2-slot, offset low. -/
def branchWord (op : BitVec 6) (rs1 rs2 : Reg) (offset : Imm) : Word :=
  fieldAt op 26 ||| fieldAt (indexOf rs1) 18 ||| fieldAt (indexOf rs2) 14 ||| fieldAt (truncImm offset) 0

/-- R168: all three slots zero, immediate low. -/
def immOnlyWord (op : BitVec 6) (imm : Imm) : Word := fieldAt op 26 ||| fieldAt (truncImm imm) 0

/-- R191, R192: no slots, a 26-bit offset. -/
def jumpWord (op : BitVec 6) (offset : JOff) : Word := fieldAt op 26 ||| fieldAt (truncJOff offset) 0

end Sys2Proof.Machine
end

