-- ==== Sys2Proof/Machine/Jump.lean ====
section
/-! DEFINITION. Machine/Jump: the meanings of `jal` and `jump` (R190 to R192): the instruction presented to the encoder gives the
word of its rule, its offset truncated to 26 bits (R69, R107). Control transfer is outside the block (R194, D12, log entry 1). -/

namespace Sys2Proof.Machine

/-- R191: opcode 0x08. -/
def execJal (offset : JOff) (s : State) : Host.Outcome State Fault Refusal :=
  driveEncoder (.jal offset) (jumpWord 0x08 offset) s

/-- R192: opcode 0x09. -/
def execJump (offset : JOff) (s : State) : Host.Outcome State Fault Refusal :=
  driveEncoder (.jump offset) (jumpWord 0x09 offset) s

end Sys2Proof.Machine
end

