-- ==== Sys2Proof/Machine/RegisterImmediate.lean ====
section
/-! DEFINITION. Machine/RegisterImmediate: the meanings of `addi` to `ecall` (R160 to R168): the instruction presented to the encoder
gives the word of its rule, its immediate truncated to the 14 bits of the field (R68, R107). No execution meaning is given (R170,
D12, log entry 1). -/

namespace Sys2Proof.Machine

/-- R161: opcode 0x01; destination in the rd-slot, source in the rs1-slot. -/
def execAddi (rd rs1 : Reg) (imm : Imm) (s : State) : Host.Outcome State Fault Refusal :=
  driveEncoder (.addi rd rs1 imm) (riTwoWord 0x01 rd rs1 imm) s

/-- R162: opcode 0x02; destination in the rd-slot, base in the rs1-slot. -/
def execLoad (rd base : Reg) (offset : Imm) (s : State) : Host.Outcome State Fault Refusal :=
  driveEncoder (.load rd base offset) (riTwoWord 0x02 rd base offset) s

/-- R163: opcode 0x03; the SOURCE in the rd-slot, base in the rs1-slot. -/
def execStore (src base : Reg) (offset : Imm) (s : State) : Host.Outcome State Fault Refusal :=
  driveEncoder (.store src base offset) (riTwoWord 0x03 src base offset) s

/-- R164: opcode 0x04. -/
def execBeq (rs1 rs2 : Reg) (offset : Imm) (s : State) : Host.Outcome State Fault Refusal :=
  driveEncoder (.beq rs1 rs2 offset) (branchWord 0x04 rs1 rs2 offset) s

/-- R165: opcode 0x05. -/
def execBne (rs1 rs2 : Reg) (offset : Imm) (s : State) : Host.Outcome State Fault Refusal :=
  driveEncoder (.bne rs1 rs2 offset) (branchWord 0x05 rs1 rs2 offset) s

/-- R166: opcode 0x06. -/
def execBlt (rs1 rs2 : Reg) (offset : Imm) (s : State) : Host.Outcome State Fault Refusal :=
  driveEncoder (.blt rs1 rs2 offset) (branchWord 0x06 rs1 rs2 offset) s

/-- R167: opcode 0x07. -/
def execBge (rs1 rs2 : Reg) (offset : Imm) (s : State) : Host.Outcome State Fault Refusal :=
  driveEncoder (.bge rs1 rs2 offset) (branchWord 0x07 rs1 rs2 offset) s

/-- R168: opcode 0x0A; no register operand. -/
def execEcall (imm : Imm) (s : State) : Host.Outcome State Fault Refusal :=
  driveEncoder (.ecall imm) (immOnlyWord 0x0A imm) s

end Sys2Proof.Machine
end

