-- ==== Sys2Proof/Machine/RegisterRegister.lean ====
section
/-! DEFINITION. Machine/RegisterRegister: the meanings of `add` to `shr` (R140 to R147): the instruction presented to the encoder
gives the word of its rule. The decode half of each rule is `decode`, which the step applies to a word. No execution meaning is
given: "this layer performs no execution semantics" (R149, D12, log entry 1). -/

namespace Sys2Proof.Machine

/-- R141: funct 0x0001. -/
def execAdd (rd rs1 rs2 : Reg) (s : State) : Host.Outcome State Fault Refusal :=
  driveEncoder (.add rd rs1 rs2) (rrWord 0x0001 rd rs1 rs2) s

/-- R142: funct 0x0002. -/
def execSub (rd rs1 rs2 : Reg) (s : State) : Host.Outcome State Fault Refusal :=
  driveEncoder (.sub rd rs1 rs2) (rrWord 0x0002 rd rs1 rs2) s

/-- R143: funct 0x0003. -/
def execAnd (rd rs1 rs2 : Reg) (s : State) : Host.Outcome State Fault Refusal :=
  driveEncoder (.and rd rs1 rs2) (rrWord 0x0003 rd rs1 rs2) s

/-- R144: funct 0x0004. -/
def execOr (rd rs1 rs2 : Reg) (s : State) : Host.Outcome State Fault Refusal :=
  driveEncoder (.or rd rs1 rs2) (rrWord 0x0004 rd rs1 rs2) s

/-- R145: funct 0x0005. -/
def execXor (rd rs1 rs2 : Reg) (s : State) : Host.Outcome State Fault Refusal :=
  driveEncoder (.xor rd rs1 rs2) (rrWord 0x0005 rd rs1 rs2) s

/-- R146: funct 0x0006. -/
def execShl (rd rs1 rs2 : Reg) (s : State) : Host.Outcome State Fault Refusal :=
  driveEncoder (.shl rd rs1 rs2) (rrWord 0x0006 rd rs1 rs2) s

/-- R147: funct 0x0007. -/
def execShr (rd rs1 rs2 : Reg) (s : State) : Host.Outcome State Fault Refusal :=
  driveEncoder (.shr rd rs1 rs2) (rrWord 0x0007 rd rs1 rs2) s

end Sys2Proof.Machine
end

