-- ==== Sys2Proof/Machine/Flags.lean ====
section
/-! DEFINITION. Machine/Flags: the block has no flags, condition codes or predicates (R27), so no instruction computes one. Its only
status output is the decoder's success-or-error result; this file gives that result as the signals of rules R124 and R205. -/

namespace Sys2Proof.Machine

/-- `dec_ok`: 1 when the result is `Ok`, 0 when it is `Err` (R124). -/
def decOk : Result → BitVec 1
  | .ok _ => 1
  | .err _ => 0

/-- `err_kind`, 2 bits (R205, D7). -/
def errKind : DecodeError → BitVec 2
  | .reservedOpcode _ => 0
  | .reservedFunct _ => 1
  | .reservedField _ _ => 2
  | .invalidRegister _ _ => 3

/-- The code of a slot name: 0 rd, 1 rs1, 2 rs2; 3 is never produced (R205, D7). -/
def slotCode : Slot → BitVec 2
  | .rd => 0
  | .rs1 => 1
  | .rs2 => 2

/-- `err_field`, 2 bits. For kinds 0 and 1 rule R205 calls it unspecified: there it is the FREE VALUE `free`, which nothing
constrains (U10, log entry 9); a statement about it holds for every `free`. -/
def errField (free : BitVec 2) : DecodeError → BitVec 2
  | .reservedOpcode _ => free
  | .reservedFunct _ => free
  | .reservedField field _ => slotCode field
  | .invalidRegister field _ => slotCode field

/-- `err_value`, 14 bits: the raw value zero-extended (R205, D14). -/
def errValue : DecodeError → BitVec 14
  | .reservedOpcode raw => raw.setWidth 14
  | .reservedFunct raw => raw
  | .reservedField _ value => value.setWidth 14
  | .invalidRegister _ value => value.setWidth 14

/-- The string rule R203 gives a slot in an error (D5). -/
def slotName : Slot → String
  | .rd => "rd"
  | .rs1 => "rs1"
  | .rs2 => "rs2"

end Sys2Proof.Machine
end

