-- ==== Sys2Proof/Machine/Step.lean ====
section
/-! DEFINITION. Machine/Step: one step is one presentation (log entry 3), each "one atomic, always-enabled function application"
(R235). A word goes to the decoder; the instruction of an accepted word goes to the encoder (D17), which is `exec`. With nothing left
to present, the inputs and hence the outputs stay as they are (R230, log entry 4). -/

namespace Sys2Proof.Machine

/-- The caller makes its oldest presentation. -/
def step (s : State) : Host.Outcome State Fault Refusal :=
  match s.pending with
  | [] => .next s
  | .word w :: rest =>
    match decode w with
    | .ok i => exec i (acceptWord w i (withPending rest s))
    | .err e => .next (raiseError w e (withPending rest s))
  | .insn i :: rest => exec i (withPending rest s)
  | .place i :: rest => .next (presentForward i (withPending rest s))
  | .unplace op a b c v :: rest => .next (presentReverse op a b c v (withPending rest s))

/-- `s` with the opcode-table word put first among the caller's presentations to the decoder, so that the next step presents it
(log entry 3). -/
def State.withFetchWord (s : State) (nbits w : Nat) : State :=
  { s with pending := .word (wordOfBits nbits w) :: s.pending }

end Sys2Proof.Machine
end

