-- ==== Sys2Proof/Safety.lean ====
section
/-! DEFINITION. Safety: the terms in which claims about the machine are made: what an instruction leaves behind when it completes,
when the ports are consistent, and when the caller's records are valid. -/

namespace Sys2Proof.Machine

/-- `s` after the Instruction `i` has passed the forward multiplexer and the encoder as the raw fields `f`. Everything else, the
decoder's ports, the reverse multiplexer's, the presentations still to be made and the record of results, is as in `s`. -/
def encodedAs (i : Instr) (f : Fields) (s : State) : State :=
  { s with
    fmForward := some { insn := i, fields := f }
    enc := some { insn := i, word := pack f }
    encoded := s.encoded ++ [pack f] }

/-- The decoder accepts this word. -/
def accepts (w : Word) : Bool :=
  match decode w with
  | .ok _ => true
  | .err _ => false

/-- The 4 bits of a word's slot (R67). -/
def slotOf : Slot → Word → BitVec 4
  | .rd, w => rdSlot w
  | .rs1, w => rs1Slot w
  | .rs2, w => rs2Slot w

/-- The slots a register-immediate variant does not use: the "zero-register" entries of the placement table (R70, R71). -/
def unusedSlots : RiOpcode → List Slot
  | .addi | .load | .store => [.rs2]
  | .beq | .bne | .blt | .bge => [.rd]
  | .ecall => [.rd, .rs1, .rs2]

/-- R230: every output at the ports is the function of the input presented there that the block computes. -/
def PortsConsistent (s : State) : Prop :=
  (∀ p, s.fmForward = some p → p.fields = place p.insn) ∧
  (∀ p, s.fmReverse = some p → p.result = fmResult p.op p.a p.b p.c p.v) ∧
  (∀ p, s.enc = some p → p.word = encode p.insn) ∧
  (∀ p, s.dec = some p → p.result = decode p.word)

/-- Every recorded result is the decoder's answer to some word, and every recorded word is the canonical encoding of a
well-formed Instruction (R106, R118). -/
def RecordsValid (s : State) : Prop :=
  (∀ r ∈ s.results, ∃ w, r = decode w) ∧
  (∀ w ∈ s.encoded, ∃ i, WellFormed i ∧ decode w = .ok i ∧ encode i = w)

/-- The invariant of the machine. -/
def CodecInv (s : State) : Prop := PortsConsistent s ∧ RecordsValid s

/-- `k` steps, stopping at the first fault or refusal: `Host.Core.run` of this machine, in the machine's own types. -/
def run : Nat → State → Host.Outcome State Fault Refusal
  | 0, s => .next s
  | k + 1, s =>
    match step s with
    | .next t => run k t
    | .fault r => .fault r
    | .refused r => .refused r

end Sys2Proof.Machine
end

