-- ==== Sys2Proof/Certificates/Slice0/Obligations.lean ====
section
/-! DEFINITION. Obligations: the statements about the codec, from the spec's numbered rules. Where a statement rests on one of the
spec's own decisions (D1 the immediate's width, D2 opcode values, D3 function codes, D6 the order of checks, D8 and D9 the ports, D17
the end state of a sequence) its docstring names it and the log entry, and its basis is 'derived'. `encodedAs i f s` (Safety) is `s` with the
encoder and the forward multiplexer holding `i` and its fields `f`, the word `pack f` recorded, and NOTHING ELSE changed: an
equation `exec i s = .next (encodedAs i f s)` is therefore the completion, the result and the frame of `i` in one. What completing means
and what is recorded is the model's choice (log entries 1, 2, 5). -/

open Sys2Proof Sys2Proof.Machine

/-! ## Catalogs and fields -/

/-- R100: `idx` and `reg` are a total bijection between the 16 identifiers and the 16 4-bit values. -/
def Obligations.RegisterCatalogIsTotalBijection : Prop :=
  (∀ r : Reg, registerOf (indexOf r) = r) ∧ (∀ n : BitVec 4, indexOf (registerOf n) = n) ∧
  ([Reg.r0, .r1, .r2, .r3, .r4, .r5, .r6, .r7, .r8, .r9, .r10, .r11, .r12, .r13, .r14, .r15].map fun r =>
    (indexOf r).toNat) = List.range 16

/-- R101, R64: the opcode catalog is a partial injection defined on exactly 0x00 to 0x0A. The values other than 0x00 and 0x08 in the last
clause are the spec's decision D2 (log entry 11). -/
def Obligations.OpcodeCatalogAcceptsElevenValues : Prop :=
  (∀ p : Opcode, opcodeOf (opcodeValue p) = some p) ∧
  (∀ (v : BitVec 6) (p : Opcode), opcodeOf v = some p → opcodeValue p = v) ∧
  (∀ v : BitVec 6, opcodeOf v = none ↔ 0x0B ≤ v.toNat) ∧
  (([.rr, .ri .addi, .ri .load, .ri .store, .ri .beq, .ri .bne, .ri .blt, .ri .bge, .jal, .jump, .ri .ecall] :
    List Opcode).map fun p => (opcodeValue p).toNat) = List.range Config.numOpcodes

/-- R102, R66: the function-code table is a partial injection defined on exactly 0x0001 to 0x0007. The values other than `Add`'s in the last
clause are the spec's decision D3 (log entry 12). -/
def Obligations.FunctCatalogAcceptsSevenCodes : Prop :=
  (∀ op : RrOp, functOf (functValue op) = some op) ∧
  (∀ (f : BitVec 14) (op : RrOp), functOf f = some op → functValue op = f) ∧
  (∀ f : BitVec 14, functOf f = none ↔ (f.toNat = 0 ∨ 0x0008 ≤ f.toNat)) ∧
  (([.add, .sub, .and, .or, .xor, .shl, .shr] : List RrOp).map fun op => (functValue op).toNat) =
    [1, 2, 3, 4, 5, 6, 7]

/-- R121 (a) to (d), with the containers of R125 (D13) and the field width of D1 (log entries 10, 15): extension preserves the field and its value; truncation
gives the value back exactly when it is in range, and otherwise a value that differs by a multiple of the field's modulus. -/
def Obligations.SignedFieldsTruncateAndExtend : Prop :=
  (∀ f : BitVec 14, truncImm (sextImm f) = f ∧ (sextImm f).toInt = f.toInt) ∧
  (∀ v : Imm, (truncImm v).toInt = v.toInt ↔ immInRange v = true) ∧
  (∀ v : Imm, (16384 : Int) ∣ v.toInt - (truncImm v).toInt) ∧
  (∀ w : Word, truncJOff (sextJOff w) = offField w ∧ (sextJOff w).toInt = (offField w).toInt) ∧
  (∀ o : JOff, (truncJOff o).toInt = o.toInt ↔ joffInRange o = true) ∧
  (∀ o : JOff, (67108864 : Int) ∣ o.toInt - (truncJOff o).toInt)

/-! ## The register-register family (R140 to R147) -/

/-- R140, for each of the seven variants `V` with function code `F = functValue V` : the word encoded, the words that decode to it, and
the one error a word with opcode 0x00 can raise. -/
def Obligations.RegisterRegisterFamilyRule : Prop :=
  (∀ (op : RrOp) (rd rs1 rs2 : Reg),
    encode (rrInstr op rd rs1 rs2) =
      (0 : BitVec 6) ++ indexOf rd ++ indexOf rs1 ++ indexOf rs2 ++ functValue op) ∧
  (∀ (op : RrOp) (w : Word), opcodeField w = 0x00 → lowField w = functValue op →
    decode w = .ok (rrInstr op (registerOf (rdSlot w)) (registerOf (rs1Slot w)) (registerOf (rs2Slot w)))) ∧
  (∀ (w : Word) (e : DecodeError), opcodeField w = 0x00 →
    (decode w = .err e ↔
      e = .reservedFunct (lowField w) ∧ ¬ (0x0001 ≤ (lowField w).toNat ∧ (lowField w).toNat ≤ 0x0007))) ∧
  (∀ (op : RrOp) (rd rs1 rs2 : Reg), decode (encode (rrInstr op rd rs1 rs2)) = .ok (rrInstr op rd rs1 rs2))

/-- R141, the `Add` rule: its encode line; its decode line; its match and mask; its corner cases; the source's worked example in both
directions. -/
def Obligations.AddEncodesAndDecodes : Prop :=
  (∀ rd rs1 rs2 : Reg, encode (.add rd rs1 rs2) =
    ((indexOf rd).setWidth 32 <<< 22) ||| ((indexOf rs1).setWidth 32 <<< 18) |||
      ((indexOf rs2).setWidth 32 <<< 14) ||| 0x0001) ∧
  (∀ w : Word, opcodeField w = 0x00 → lowField w = 0x0001 →
    decode w = .ok (.add (registerOf (rdSlot w)) (registerOf (rs1Slot w)) (registerOf (rs2Slot w)))) ∧
  (∀ w : Word, w &&& 0xFC003FFF = 0x00000001 ↔ ∃ rd rs1 rs2, decode w = .ok (.add rd rs1 rs2)) ∧
  encode (.add .r0 .r0 .r0) = 0x00000001 ∧ decode 0x00000000 = .err (.reservedFunct 0) ∧
  encode (.add .r15 .r15 .r15) = 0x03FFC001 ∧ encode (.add .r5 .r5 .r5) = 0x01554001 ∧
  encode (.add .r1 .r2 .r3) = 0x0048C001 ∧ decode 0x0048C001 = .ok (.add .r1 .r2 .r3)

/-- R142, the `Sub` rule, its function code 2 by the spec's decision D3 (log entry 12): completion, word and frame; decode line; match and mask;
its example. -/
def Obligations.SubEncodesAndDecodes : Prop :=
  (∀ (rd rs1 rs2 : Reg) (s : State),
    exec (.sub rd rs1 rs2) s =
      .next (encodedAs (.sub rd rs1 rs2) (.slotted 0x00 (indexOf rd) (indexOf rs1) (indexOf rs2) 0x0002) s)) ∧
  (∀ w : Word, opcodeField w = 0x00 → lowField w = 0x0002 →
    decode w = .ok (.sub (registerOf (rdSlot w)) (registerOf (rs1Slot w)) (registerOf (rs2Slot w)))) ∧
  (∀ w : Word, w &&& 0xFC003FFF = 0x00000002 ↔ ∃ rd rs1 rs2, decode w = .ok (.sub rd rs1 rs2)) ∧
  encode (.sub .r4 .r5 .r6) = 0x01158002

/-- R143, the `And` rule, its function code 3 by the spec's decision D3 (log entry 12): completion, word and frame; decode line; match and mask;
its example. -/
def Obligations.AndEncodesAndDecodes : Prop :=
  (∀ (rd rs1 rs2 : Reg) (s : State),
    exec (.and rd rs1 rs2) s =
      .next (encodedAs (.and rd rs1 rs2) (.slotted 0x00 (indexOf rd) (indexOf rs1) (indexOf rs2) 0x0003) s)) ∧
  (∀ w : Word, opcodeField w = 0x00 → lowField w = 0x0003 →
    decode w = .ok (.and (registerOf (rdSlot w)) (registerOf (rs1Slot w)) (registerOf (rs2Slot w)))) ∧
  (∀ w : Word, w &&& 0xFC003FFF = 0x00000003 ↔ ∃ rd rs1 rs2, decode w = .ok (.and rd rs1 rs2)) ∧
  encode (.and .r7 .r8 .r9) = 0x01E24003

/-- R144, the `Or` rule, its function code 4 by the spec's decision D3 (log entry 12): completion, word and frame; decode line; match and mask;
its example. -/
def Obligations.OrEncodesAndDecodes : Prop :=
  (∀ (rd rs1 rs2 : Reg) (s : State),
    exec (.or rd rs1 rs2) s =
      .next (encodedAs (.or rd rs1 rs2) (.slotted 0x00 (indexOf rd) (indexOf rs1) (indexOf rs2) 0x0004) s)) ∧
  (∀ w : Word, opcodeField w = 0x00 → lowField w = 0x0004 →
    decode w = .ok (.or (registerOf (rdSlot w)) (registerOf (rs1Slot w)) (registerOf (rs2Slot w)))) ∧
  (∀ w : Word, w &&& 0xFC003FFF = 0x00000004 ↔ ∃ rd rs1 rs2, decode w = .ok (.or rd rs1 rs2)) ∧
  encode (.or .r10 .r11 .r12) = 0x02AF0004

/-- R145, the `Xor` rule, its function code 5 by the spec's decision D3 (log entry 12): completion, word and frame; decode line; match and mask;
its example. -/
def Obligations.XorEncodesAndDecodes : Prop :=
  (∀ (rd rs1 rs2 : Reg) (s : State),
    exec (.xor rd rs1 rs2) s =
      .next (encodedAs (.xor rd rs1 rs2) (.slotted 0x00 (indexOf rd) (indexOf rs1) (indexOf rs2) 0x0005) s)) ∧
  (∀ w : Word, opcodeField w = 0x00 → lowField w = 0x0005 →
    decode w = .ok (.xor (registerOf (rdSlot w)) (registerOf (rs1Slot w)) (registerOf (rs2Slot w)))) ∧
  (∀ w : Word, w &&& 0xFC003FFF = 0x00000005 ↔ ∃ rd rs1 rs2, decode w = .ok (.xor rd rs1 rs2)) ∧
  encode (.xor .r13 .r14 .r15) = 0x037BC005

/-- R146, the `Shl` rule, its function code 6 by the spec's decision D3 (log entry 12): completion, word and frame; decode line; match and mask;
its example. -/
def Obligations.ShlEncodesAndDecodes : Prop :=
  (∀ (rd rs1 rs2 : Reg) (s : State),
    exec (.shl rd rs1 rs2) s =
      .next (encodedAs (.shl rd rs1 rs2) (.slotted 0x00 (indexOf rd) (indexOf rs1) (indexOf rs2) 0x0006) s)) ∧
  (∀ w : Word, opcodeField w = 0x00 → lowField w = 0x0006 →
    decode w = .ok (.shl (registerOf (rdSlot w)) (registerOf (rs1Slot w)) (registerOf (rs2Slot w)))) ∧
  (∀ w : Word, w &&& 0xFC003FFF = 0x00000006 ↔ ∃ rd rs1 rs2, decode w = .ok (.shl rd rs1 rs2)) ∧
  encode (.shl .r15 .r0 .r1) = 0x03C04006

/-- R147, the `Shr` rule, its function code 7 by the spec's decision D3 (log entry 12): completion, word and frame; decode line; match and mask;
its example. -/
def Obligations.ShrEncodesAndDecodes : Prop :=
  (∀ (rd rs1 rs2 : Reg) (s : State),
    exec (.shr rd rs1 rs2) s =
      .next (encodedAs (.shr rd rs1 rs2) (.slotted 0x00 (indexOf rd) (indexOf rs1) (indexOf rs2) 0x0007) s)) ∧
  (∀ w : Word, opcodeField w = 0x00 → lowField w = 0x0007 →
    decode w = .ok (.shr (registerOf (rdSlot w)) (registerOf (rs1Slot w)) (registerOf (rs2Slot w)))) ∧
  (∀ w : Word, w &&& 0xFC003FFF = 0x00000007 ↔ ∃ rd rs1 rs2, decode w = .ok (.shr rd rs1 rs2)) ∧
  encode (.shr .r0 .r15 .r15) = 0x003FC007

/-! ## The register-immediate family (R160 to R168): opcode values by D2, 14-bit immediate by D1 (log entries 10, 11) -/

/-- R161, the `Addi` rule (destination in the rd-slot, source in the rs1-slot; D1, D2): completion, word and frame; decode line; the one error; match and mask;
its example with a negative immediate. -/
def Obligations.AddiEncodesAndDecodes : Prop :=
  (∀ (rd rs1 : Reg) (imm : Imm) (s : State),
    exec (.addi rd rs1 imm) s =
      .next (encodedAs (.addi rd rs1 imm) (.slotted 0x01 (indexOf rd) (indexOf rs1) 0 (truncImm imm)) s)) ∧
  (∀ w : Word, opcodeField w = 0x01 → rs2Slot w = 0 →
    decode w = .ok (.addi (registerOf (rdSlot w)) (registerOf (rs1Slot w)) ((lowField w).signExtend 16))) ∧
  (∀ w : Word, opcodeField w = 0x01 → rs2Slot w ≠ 0 → decode w = .err (.reservedField .rs2 (rs2Slot w))) ∧
  (∀ w : Word, w &&& 0xFC03C000 = 0x04000000 ↔ ∃ rd rs1 imm, decode w = .ok (.addi rd rs1 imm)) ∧
  encode (.addi .r1 .r2 (-1)) = 0x04483FFF ∧ decode 0x04483FFF = .ok (.addi .r1 .r2 (-1))

/-- R162, the `Load` rule (destination in the rd-slot, base in the rs1-slot; D1, D2): completion, word and frame; decode line; the one error; match and mask;
its example with a negative immediate. -/
def Obligations.LoadEncodesAndDecodes : Prop :=
  (∀ (rd base : Reg) (offset : Imm) (s : State),
    exec (.load rd base offset) s =
      .next (encodedAs (.load rd base offset) (.slotted 0x02 (indexOf rd) (indexOf base) 0 (truncImm offset)) s)) ∧
  (∀ w : Word, opcodeField w = 0x02 → rs2Slot w = 0 →
    decode w = .ok (.load (registerOf (rdSlot w)) (registerOf (rs1Slot w)) ((lowField w).signExtend 16))) ∧
  (∀ w : Word, opcodeField w = 0x02 → rs2Slot w ≠ 0 → decode w = .err (.reservedField .rs2 (rs2Slot w))) ∧
  (∀ w : Word, w &&& 0xFC03C000 = 0x08000000 ↔ ∃ rd base offset, decode w = .ok (.load rd base offset)) ∧
  encode (.load .r4 .r5 (-4)) = 0x09143FFC ∧ decode 0x09143FFC = .ok (.load .r4 .r5 (-4))

/-- R163, the `Store` rule (the SOURCE in the rd-slot, base in the rs1-slot; D1, D2): completion, word and frame; decode line; the one error; match and mask;
its example with a negative immediate. -/
def Obligations.StoreEncodesAndDecodes : Prop :=
  (∀ (src base : Reg) (offset : Imm) (s : State),
    exec (.store src base offset) s =
      .next (encodedAs (.store src base offset) (.slotted 0x03 (indexOf src) (indexOf base) 0 (truncImm offset)) s)) ∧
  (∀ w : Word, opcodeField w = 0x03 → rs2Slot w = 0 →
    decode w = .ok (.store (registerOf (rdSlot w)) (registerOf (rs1Slot w)) ((lowField w).signExtend 16))) ∧
  (∀ w : Word, opcodeField w = 0x03 → rs2Slot w ≠ 0 → decode w = .err (.reservedField .rs2 (rs2Slot w))) ∧
  (∀ w : Word, w &&& 0xFC03C000 = 0x0C000000 ↔ ∃ src base offset, decode w = .ok (.store src base offset)) ∧
  encode (.store .r6 .r7 (-8192)) = 0x0D9C2000 ∧ decode 0x0D9C2000 = .ok (.store .r6 .r7 (-8192))

/-- R164, the `Beq` rule (rd-slot zero, source 1 in the rs1-slot, source 2 in the rs2-slot; D1, D2): completion, word and frame; decode
line; the one error; match and mask; its example. -/
def Obligations.BeqEncodesAndDecodes : Prop :=
  (∀ (rs1 rs2 : Reg) (offset : Imm) (s : State),
    exec (.beq rs1 rs2 offset) s =
      .next (encodedAs (.beq rs1 rs2 offset) (.slotted 0x04 0 (indexOf rs1) (indexOf rs2) (truncImm offset)) s)) ∧
  (∀ w : Word, opcodeField w = 0x04 → rdSlot w = 0 →
    decode w = .ok (.beq (registerOf (rs1Slot w)) (registerOf (rs2Slot w)) ((lowField w).signExtend 16))) ∧
  (∀ w : Word, opcodeField w = 0x04 → rdSlot w ≠ 0 → decode w = .err (.reservedField .rd (rdSlot w))) ∧
  (∀ w : Word, w &&& 0xFFC00000 = 0x10000000 ↔ ∃ rs1 rs2 offset, decode w = .ok (.beq rs1 rs2 offset)) ∧
  encode (.beq .r1 .r3 (-1)) = 0x1004FFFF ∧ decode 0x1004FFFF = .ok (.beq .r1 .r3 (-1))

/-- R165, the `Bne` rule (rd-slot zero, source 1 in the rs1-slot, source 2 in the rs2-slot; D1, D2): completion, word and frame; decode
line; the one error; match and mask; its example. -/
def Obligations.BneEncodesAndDecodes : Prop :=
  (∀ (rs1 rs2 : Reg) (offset : Imm) (s : State),
    exec (.bne rs1 rs2 offset) s =
      .next (encodedAs (.bne rs1 rs2 offset) (.slotted 0x05 0 (indexOf rs1) (indexOf rs2) (truncImm offset)) s)) ∧
  (∀ w : Word, opcodeField w = 0x05 → rdSlot w = 0 →
    decode w = .ok (.bne (registerOf (rs1Slot w)) (registerOf (rs2Slot w)) ((lowField w).signExtend 16))) ∧
  (∀ w : Word, opcodeField w = 0x05 → rdSlot w ≠ 0 → decode w = .err (.reservedField .rd (rdSlot w))) ∧
  (∀ w : Word, w &&& 0xFFC00000 = 0x14000000 ↔ ∃ rs1 rs2 offset, decode w = .ok (.bne rs1 rs2 offset)) ∧
  encode (.bne .r1 .r2 (-2)) = 0x1404BFFE ∧ decode 0x1404BFFE = .ok (.bne .r1 .r2 (-2))

/-- R166, the `Blt` rule (rd-slot zero, source 1 in the rs1-slot, source 2 in the rs2-slot; D1, D2): completion, word and frame; decode
line; the one error; match and mask; its example. -/
def Obligations.BltEncodesAndDecodes : Prop :=
  (∀ (rs1 rs2 : Reg) (offset : Imm) (s : State),
    exec (.blt rs1 rs2 offset) s =
      .next (encodedAs (.blt rs1 rs2 offset) (.slotted 0x06 0 (indexOf rs1) (indexOf rs2) (truncImm offset)) s)) ∧
  (∀ w : Word, opcodeField w = 0x06 → rdSlot w = 0 →
    decode w = .ok (.blt (registerOf (rs1Slot w)) (registerOf (rs2Slot w)) ((lowField w).signExtend 16))) ∧
  (∀ w : Word, opcodeField w = 0x06 → rdSlot w ≠ 0 → decode w = .err (.reservedField .rd (rdSlot w))) ∧
  (∀ w : Word, w &&& 0xFFC00000 = 0x18000000 ↔ ∃ rs1 rs2 offset, decode w = .ok (.blt rs1 rs2 offset)) ∧
  encode (.blt .r8 .r9 100) = 0x18224064 ∧ decode 0x18224064 = .ok (.blt .r8 .r9 100)

/-- R167, the `Bge` rule (rd-slot zero, source 1 in the rs1-slot, source 2 in the rs2-slot; D1, D2): completion, word and frame; decode
line; the one error; match and mask; its example. -/
def Obligations.BgeEncodesAndDecodes : Prop :=
  (∀ (rs1 rs2 : Reg) (offset : Imm) (s : State),
    exec (.bge rs1 rs2 offset) s =
      .next (encodedAs (.bge rs1 rs2 offset) (.slotted 0x07 0 (indexOf rs1) (indexOf rs2) (truncImm offset)) s)) ∧
  (∀ w : Word, opcodeField w = 0x07 → rdSlot w = 0 →
    decode w = .ok (.bge (registerOf (rs1Slot w)) (registerOf (rs2Slot w)) ((lowField w).signExtend 16))) ∧
  (∀ w : Word, opcodeField w = 0x07 → rdSlot w ≠ 0 → decode w = .err (.reservedField .rd (rdSlot w))) ∧
  (∀ w : Word, w &&& 0xFFC00000 = 0x1C000000 ↔ ∃ rs1 rs2 offset, decode w = .ok (.bge rs1 rs2 offset)) ∧
  encode (.bge .r15 .r15 (-8192)) = 0x1C3FE000 ∧ decode 0x1C3FE000 = .ok (.bge .r15 .r15 (-8192))

/-- R168, the `Ecall` rule (all three slots zero; D1, D2, and the order of the checks by D6, log entry 13): completion, word and frame;
decode line; the three errors, first offender in the order rd, rs1, rs2; match and mask; its examples. -/
def Obligations.EcallEncodesAndDecodes : Prop :=
  (∀ (imm : Imm) (s : State),
    exec (.ecall imm) s = .next (encodedAs (.ecall imm) (.slotted 0x0A 0 0 0 (truncImm imm)) s)) ∧
  (∀ w : Word, opcodeField w = 0x0A →
    decode w =
      if rdSlot w ≠ 0 then .err (.reservedField .rd (rdSlot w))
      else if rs1Slot w ≠ 0 then .err (.reservedField .rs1 (rs1Slot w))
      else if rs2Slot w ≠ 0 then .err (.reservedField .rs2 (rs2Slot w))
      else .ok (.ecall ((lowField w).signExtend 16))) ∧
  (∀ w : Word, w &&& 0xFFFFC000 = 0x28000000 ↔ ∃ imm, decode w = .ok (.ecall imm)) ∧
  encode (.ecall 93) = 0x2800005D ∧ decode 0x28003FFF = .ok (.ecall (-1)) ∧
  decode 0x29158007 = .err (.reservedField .rd 4) ∧ decode 0x28158007 = .err (.reservedField .rs1 5)

/-! ## The jump family (R190 to R192) -/

/-- R191, the `Jal` rule: its encode line (the low 26 bits, for an offset out of range too); its decode line; its match and mask; its corner
cases; the out-of-range corner; the source's worked example in both directions. -/
def Obligations.JalEncodesAndDecodes : Prop :=
  (∀ offset : JOff, encode (.jal offset) = ((0x08 : Word) <<< 26) ||| (offset &&& 0x03FFFFFF)) ∧
  (∀ w : Word, opcodeField w = 0x08 → decode w = .ok (.jal ((offField w).signExtend 32))) ∧
  (∀ w : Word, w &&& 0xFC000000 = 0x20000000 ↔ ∃ offset, decode w = .ok (.jal offset)) ∧
  encode (.jal 0) = 0x20000000 ∧ encode (.jal 33554431) = 0x21FFFFFF ∧ encode (.jal (-33554432)) = 0x22000000 ∧
  decode 0x22000000 = .ok (.jal (-33554432)) ∧ encode (.jal 33554432) = encode (.jal (-33554432)) ∧
  encode (.jal (-1)) = 0x23FFFFFF ∧ decode 0x23FFFFFF = .ok (.jal (-1))

/-- Completion and frame of `add` and `jal`, whose encode and decode lines `AddEncodesAndDecodes` and `JalEncodesAndDecodes` state: presented to
the encoder, each completes in every state with its word (the offset truncated to 26 bits) and nothing else changed. What completion means
is the model's choice (log entries 1, 2, 5). -/
def Obligations.AddAndJalCompleteInTheEncoder : Prop :=
  (∀ (rd rs1 rs2 : Reg) (s : State),
    exec (.add rd rs1 rs2) s =
      .next (encodedAs (.add rd rs1 rs2) (.slotted 0x00 (indexOf rd) (indexOf rs1) (indexOf rs2) 0x0001) s)) ∧
  (∀ (offset : JOff) (s : State),
    exec (.jal offset) s = .next (encodedAs (.jal offset) (.long 0x08 (truncJOff offset)) s))

/-- R192, the `Jump` rule, its opcode value by the spec's decision D2 (log entry 11): as for `Jal`; and the two words of one offset differ in
bit 26 only. -/
def Obligations.JumpEncodesAndDecodes : Prop :=
  (∀ (offset : JOff) (s : State),
    exec (.jump offset) s = .next (encodedAs (.jump offset) (.long 0x09 (truncJOff offset)) s)) ∧
  (∀ w : Word, opcodeField w = 0x09 → decode w = .ok (.jump ((offField w).signExtend 32))) ∧
  (∀ w : Word, w &&& 0xFC000000 = 0x24000000 ↔ ∃ offset, decode w = .ok (.jump offset)) ∧
  (∀ offset : JOff, encode (.jump offset) ^^^ encode (.jal offset) = 0x04000000) ∧
  encode (.jump 16) = 0x24000010 ∧ decode 0x27FFFFFD = .ok (.jump (-3))

/-- R113: the jump path cannot fail; it delivers the 26-bit field sign-extended by the shift method, left by 6 and arithmetic right by 6; and
(an inference the spec marks as its own, with the width of D1, log entry 10) the same method by 2 in a 16-bit container extends the
immediate field. -/
def Obligations.JumpPathSignExtendsByShifting : Prop :=
  (∀ w : Word, opcodeOf (opcodeField w) = some .jal →
    decode w = .ok (.jal ((w <<< 6).sshiftRight 6)) ∧ decode w = .ok (.jal ((offField w).signExtend 32))) ∧
  (∀ w : Word, opcodeOf (opcodeField w) = some .jump →
    decode w = .ok (.jump ((w <<< 6).sshiftRight 6)) ∧ decode w = .ok (.jump ((offField w).signExtend 32))) ∧
  (∀ low : BitVec 14, sextImm low = (low.setWidth 16 <<< 2).sshiftRight 2 ∧ sextImm low = low.signExtend 16)

/-- R69: the offset field holds the offset's low 26 bits, which for an offset in range is the offset itself, unscaled; on decode the value of the delivered
offset is the signed value of the field, unscaled. -/
def Obligations.JumpOffsetIsStoredUnscaled : Prop :=
  (∀ o : JOff, offField (encode (.jal o)) = o.setWidth 26 ∧ offField (encode (.jump o)) = o.setWidth 26) ∧
  (∀ o : JOff, WellFormed (.jal o) →
    (offField (encode (.jal o))).toInt = o.toInt ∧ (offField (encode (.jump o))).toInt = o.toInt) ∧
  (∀ (w : Word) (o : JOff), decode w = .ok (.jal o) ∨ decode w = .ok (.jump o) →
    o.toInt = (offField w).toInt ∧ o = (offField w).signExtend 32)

/-! ## The encoder -/

/-- R106: for every well-formed Instruction the encoder answers, in every state, a next state with exactly one word, the same whatever the
state; that word decodes successfully; and nothing but the encoder's own ports, the forward multiplexer it uses and the record of the word changes. -/
def Obligations.EncoderIsTotalAndItsWordsAreValid : Prop :=
  ∀ i : Instr, WellFormed i →
    ∃ w, (∃ j, decode w = .ok j) ∧ ∀ s : State, exec i s = .next { s with
      fmForward := some { insn := i, fields := place i }
      enc := some { insn := i, word := w }
      encoded := s.encoded ++ [w] }

/-- R123 [derived in the spec]: what every instruction's own rule puts at the encoder's ports is what the assembled encoder `encode` computes, for
every Instruction, ill-formed ones too, in every state, with nothing else changed. -/
def Obligations.InstructionRulesAgreeWithEncoder : Prop :=
  ∀ (i : Instr) (s : State),
    exec i s = .next { s with
      fmForward := some { insn := i, fields := place i }
      enc := some { insn := i, word := encode i }
      encoded := s.encoded ++ [encode i] }

/-- R107 (for immediates by the spec's decision D10, log entry 14): an Instruction outside the invariant is packed truncated, with no error: its
word is the canonical encoding of the well-formed Instruction whose field is the truncated one, which is a different Instruction. -/
def Obligations.IllFormedInstructionsAreTruncated : Prop :=
  ∀ i : Instr, ¬ WellFormed i → ∃ j, j ≠ i ∧ WellFormed j ∧ encode i = encode j ∧ decode (encode i) = .ok j ∧
    match i with
    | .addi rd rs1 v => j = .addi rd rs1 ((truncImm v).signExtend 16)
    | .load rd base v => j = .load rd base ((truncImm v).signExtend 16)
    | .store src base v => j = .store src base ((truncImm v).signExtend 16)
    | .beq rs1 rs2 v => j = .beq rs1 rs2 ((truncImm v).signExtend 16)
    | .bne rs1 rs2 v => j = .bne rs1 rs2 ((truncImm v).signExtend 16)
    | .blt rs1 rs2 v => j = .blt rs1 rs2 ((truncImm v).signExtend 16)
    | .bge rs1 rs2 v => j = .bge rs1 rs2 ((truncImm v).signExtend 16)
    | .ecall v => j = .ecall ((truncImm v).signExtend 16)
    | .jal v => j = .jal ((truncJOff v).signExtend 32)
    | .jump v => j = .jump ((truncJOff v).signExtend 32)
    | .add _ _ _ | .sub _ _ _ | .and _ _ _ | .or _ _ _ | .xor _ _ _ | .shl _ _ _ | .shr _ _ _ => False

/-! ## The decoder -/

/-- R109: a word whose opcode is none of the 11 is `ReservedOpcode` of that opcode, whatever its other 26 bits, and no word whose opcode is one
of the 11 is. -/
def Obligations.ReservedOpcodeIsTheFirstCheck : Prop :=
  (∀ (op : BitVec 6) (off : BitVec 26), opcodeOf op = none → decode (op ++ off) = .err (.reservedOpcode op)) ∧
  (∀ (w : Word) (raw : BitVec 6), decode w = .err (.reservedOpcode raw) ↔
    raw = opcodeField w ∧ opcodeOf raw = none ∧ 0x0B ≤ raw.toNat)

/-- R202: `ReservedFunct` is raised exactly under opcode 0x00 with a function code outside 0x0001 to 0x0007, and records the whole field. -/
def Obligations.ReservedFunctOnlyUnderOpcodeZero : Prop :=
  ∀ (w : Word) (raw : BitVec 14), decode w = .err (.reservedFunct raw) ↔
    opcodeField w = 0x00 ∧ raw = lowField w ∧ (raw.toNat = 0 ∨ 8 ≤ raw.toNat)

/-- R71, R112, R203 (opcode values D2, check order D6, log entries 11 and 13): a register-immediate word is accepted exactly when every slot its variant does
not use is zero, and otherwise the error names the first offending slot with its value. -/
def Obligations.UnusedSlotsMustBeZero : Prop :=
  ∀ (p : RiOpcode) (w : Word), opcodeField w = opcodeValue (.ri p) →
    (accepts w = true ↔
      match p with
      | .addi | .load | .store => rs2Slot w = 0
      | .beq | .bne | .blt | .bge => rdSlot w = 0
      | .ecall => rdSlot w = 0 ∧ rs1Slot w = 0 ∧ rs2Slot w = 0) ∧
    (∀ (field : Slot) (value : BitVec 4), decode w = .err (.reservedField field value) ↔
      match p with
      | .addi | .load | .store => field = .rs2 ∧ value = rs2Slot w ∧ value ≠ 0
      | .beq | .bne | .blt | .bge => field = .rd ∧ value = rdSlot w ∧ value ≠ 0
      | .ecall => value ≠ 0 ∧
        match field with
        | .rd => value = rdSlot w
        | .rs1 => value = rs1Slot w ∧ rdSlot w = 0
        | .rs2 => value = rs2Slot w ∧ rdSlot w = 0 ∧ rs1Slot w = 0)

/-- R71, the zero-slot convention: the slots a variant does not use hold index 0 in every word the encoder makes; a word with a register-immediate opcode and
a non-zero unused slot fails with `ReservedField` naming such a slot and its value; RR and J words have no such slot and never raise that error. -/
def Obligations.ZeroSlotConvention : Prop :=
  (∀ (p : RiOpcode) (i : Instr) (x : Slot), opcodeOf (opcodeField (encode i)) = some (.ri p) → x ∈ unusedSlots p →
    slotOf x (encode i) = 0) ∧
  (∀ (p : RiOpcode) (w : Word), opcodeOf (opcodeField w) = some (.ri p) → (∃ x ∈ unusedSlots p, slotOf x w ≠ 0) →
    ∃ x ∈ unusedSlots p, slotOf x w ≠ 0 ∧ decode w = .err (.reservedField x (slotOf x w))) ∧
  (∀ (w : Word) (x : Slot) (v : BitVec 4), decode w = .err (.reservedField x v) →
    opcodeOf (opcodeField w) ≠ some .rr ∧ opcodeOf (opcodeField w) ≠ some .jal ∧ opcodeOf (opcodeField w) ≠ some .jump) ∧
  unusedSlots .addi = [.rs2] ∧ unusedSlots .load = [.rs2] ∧ unusedSlots .store = [.rs2] ∧
  unusedSlots .beq = [.rd] ∧ unusedSlots .bne = [.rd] ∧ unusedSlots .blt = [.rd] ∧ unusedSlots .bge = [.rd] ∧
  unusedSlots .ecall = [.rd, .rs1, .rs2]

/-- R114: no word makes the decoder return `InvalidRegister`, or report its kind on the error port. -/
def Obligations.InvalidRegisterIsUnreachable : Prop :=
  ∀ (w : Word) (field : Slot) (value : BitVec 4), decode w ≠ .err (.invalidRegister field value) ∧
    ∀ e : DecodeError, decode w = .err e → errKind e ≠ errKind (.invalidRegister field value)

/-- R115 with the two words it names: every word is either one well-formed Instruction, whose own word has the same opcode, or one of three classified errors,
each with what it implies of the word. -/
def Obligations.EveryWordIsClassified : Prop :=
  (∀ w : Word,
    match decode w with
    | .ok i => WellFormed i ∧ opcodeField w = opcodeField (encode i)
    | .err (.reservedOpcode raw) => raw = opcodeField w ∧ 0x0B ≤ raw.toNat
    | .err (.reservedFunct raw) => opcodeField w = 0x00 ∧ raw = lowField w
    | .err (.reservedField _ value) => value ≠ 0 ∧ ∃ p, opcodeOf (opcodeField w) = some (.ri p)
    | .err (.invalidRegister _ _) => False) ∧
  decode 0x00000000 = .err (.reservedFunct 0) ∧ decode 0xFFFFFFFF = .err (.reservedOpcode 0x3F)

/-! ## The laws of the pair -/

/-- R117, the round trip: `decode(encode(i)) = Ok(i)` for every well-formed Instruction. -/
def Obligations.DecodeOfEncodeIsIdentity : Prop :=
  ∀ i : Instr, WellFormed i → decode (encode i) = .ok i

/-- R118, the canonical bijection: a word that decodes to `i` is the encoding of `i`, and `i` is well-formed. -/
def Obligations.AcceptedWordsAreCanonical : Prop :=
  ∀ (w : Word) (i : Instr), decode w = .ok i → encode i = w ∧ WellFormed i

/-- R119 (a) to (e) [derived in the spec], less the number in (d), which `ValidWordCensus` states. -/
def Obligations.CodecIsABijectionOntoAcceptedWords : Prop :=
  (∀ i j : Instr, WellFormed i → WellFormed j → encode i = encode j → i = j) ∧
  (∀ (w v : Word) (i : Instr), decode w = .ok i → decode v = .ok i → w = v) ∧
  (∀ (w : Word) (i : Instr), decode w = .ok i ↔ WellFormed i ∧ w = encode i) ∧
  (∀ w : Word, accepts w = true ↔ ∃ i, WellFormed i ∧ encode i = w) ∧
  (∀ (w : Word) (i : Instr) (k : Fin 32), decode w = .ok i → decode (w ^^^ (1#32 <<< k.val)) ≠ .ok i)

/-- R77 [derived in the spec; the count depends on D1, log entry 10]: of the 2^32 words exactly 163,622,912 decode successfully. -/
def Obligations.ValidWordCensus : Prop :=
  ((Finset.univ : Finset Word).filter fun w => accepts w = true).card = 163622912

/-- R80 (values by D1, D2, D3; log entries 10, 11, 12): the 17 (match, mask) pairs are pairwise disjoint, and a word is accepted exactly when it matches one. -/
def Obligations.AcceptedExactlyWhenAnOpcodeRowMatches : Prop :=
  let rows : List (Word × Word) :=
    [(0x00000001, 0xFC003FFF), (0x00000002, 0xFC003FFF), (0x00000003, 0xFC003FFF), (0x00000004, 0xFC003FFF),
     (0x00000005, 0xFC003FFF), (0x00000006, 0xFC003FFF), (0x00000007, 0xFC003FFF),
     (0x04000000, 0xFC03C000), (0x08000000, 0xFC03C000), (0x0C000000, 0xFC03C000),
     (0x10000000, 0xFFC00000), (0x14000000, 0xFFC00000), (0x18000000, 0xFFC00000), (0x1C000000, 0xFFC00000),
     (0x28000000, 0xFFFFC000), (0x20000000, 0xFC000000), (0x24000000, 0xFC000000)]
  (rows.Pairwise fun r q => ∀ w : Word, ¬ (w &&& r.2 = r.1 ∧ w &&& q.2 = q.1)) ∧
  (∀ w : Word, accepts w = true ↔ ∃ r ∈ rows, w &&& r.2 = r.1)

/-- R116's law [derived in the spec] (opcode values D2, log entry 11): what the forward multiplexer places for a well-formed RI Instruction the reverse one,
under the same opcode, steers back to that Instruction, its checks passing; and under that opcode and low field no other values of the three
slots give that Instruction (what they give instead, an error or another Instruction, is not said here). -/
def Obligations.ReverseMultiplexerUndoesForward : Prop :=
  ∀ (i : Instr) (op : BitVec 6) (a b c : BitVec 4) (low : BitVec 14) (p : RiOpcode), WellFormed i →
    place i = .slotted op a b c low → opcodeOf op = some (.ri p) →
    zeroSlotError p a b c = none ∧ fmResult p a b c low = .ok i ∧
    (∀ (a' b' c' : BitVec 4), fmResult p a' b' c' low = .ok i ↔ a' = a ∧ b' = b ∧ c' = c)

/-- R205 (codes by the spec's decisions D7 and D14, log entry 16), for every value `free` of the field the rule leaves unspecified: the error signals of a rejected word. -/
def Obligations.ErrorSignalsOfRejectedWords : Prop :=
  ∀ (w : Word) (e : DecodeError) (free : BitVec 2), decode w = .err e →
    decOk (decode w) = 0 ∧ errKind e ≠ 3 ∧
    (errKind e = 0 → errValue e = (opcodeField w).setWidth 14) ∧
    (errKind e = 1 → errValue e = lowField w) ∧
    (errKind e = 2 →
      (errField free e = 0 ∧ errValue e = (rdSlot w).setWidth 14) ∨
      (errField free e = 1 ∧ errValue e = (rs1Slot w).setWidth 14) ∨
      (errField free e = 2 ∧ errValue e = (rs2Slot w).setWidth 14))

/-! ## Words written out from the spec -/

/-- Words spelled from the formats of R61 to R63 and from 95_test_vectors.md, one or more of each family, and what they decode to (values by D1, D2, D3). -/
def Obligations.WrittenOutWordsDecode : Prop :=
  decode 0b00000000010010001100000000000001 = .ok (.add .r1 .r2 .r3) ∧
  decode 0b00000000001111111100000000000111 = .ok (.shr .r0 .r15 .r15) ∧
  decode 0b00000100010010000011111111111111 = .ok (.addi .r1 .r2 (-1)) ∧
  decode 0b00001101100111000000000000001000 = .ok (.store .r6 .r7 8) ∧
  decode 0b00010000000001001000000000000011 = .ok (.beq .r1 .r2 3) ∧
  decode 0b00101000000000000000000001011101 = .ok (.ecall 93) ∧
  decode 0b00100011111111111111111111111111 = .ok (.jal (-1)) ∧
  decode 0b00100100000000000000000000010000 = .ok (.jump 16)

/-! ## The machine: one step, its frame, its invariant -/

/-- A step runs the decoded instruction: when the word presented next decodes to `i`, the step is `exec i` at the state in which that
word has left the caller's sequence, the decoder's ports hold it and `Ok(i)`, the result is recorded, and (for a register-immediate word
alone) the reverse multiplexer holds its fields. Feeding the result to the encoder is D17's end state (log entries 1, 3). -/
def Obligations.StepRunsDecodedInstruction : Prop :=
  ∀ (s : State) (w : Word) (rest : List Presentation) (i : Instr),
    s.pending = .word w :: rest → decode w = .ok i →
    ∃ u : State, step s = exec i u ∧ u.pending = rest ∧ u.dec = some { word := w, result := .ok i } ∧
      u.results = s.results ++ [.ok i] ∧ u.enc = s.enc ∧ u.fmForward = s.fmForward ∧ u.encoded = s.encoded ∧
      u.fmReverse =
        match opcodeOf (opcodeField w) with
        | some (.ri p) => some { op := p, a := rdSlot w, b := rs1Slot w, c := rs2Slot w, v := lowField w, result := .ok i }
        | _ => s.fmReverse

/-- The opcode-table word `w` put where the machine takes its next presentation is the instruction the very next step runs, in every state. -/
def Obligations.FetchedWordRunsNext : Prop :=
  ∀ (s : State) (nbits w : Nat) (i : Instr), decodeTableWord nbits w = some i →
    ∃ u : State, step (s.withFetchWord nbits w) = exec i u ∧ u.pending = s.pending ∧
      u.dec = some { word := wordOfBits nbits w, result := .ok i }

/-- R208, R209 (ports and sequences by D8, D9, D17; log entries 2, 5, 7): a rejected word is a completed step whose error is the value at the decoder's
ports; it is recorded, and the encoder, the forward multiplexer and the recorded words are untouched. -/
def Obligations.DecodeErrorIsAReturnedValue : Prop :=
  ∀ (s : State) (w : Word) (rest : List Presentation) (e : DecodeError),
    s.pending = .word w :: rest → decode w = .err e →
    step s = .next { s with
      pending := rest
      dec := some { word := w, result := .err e }
      results := s.results ++ [.err e]
      fmReverse :=
        match opcodeOf (opcodeField w) with
        | some (.ri p) => some { op := p, a := rdSlot w, b := rs1Slot w, c := rs2Slot w, v := lowField w, result := .err e }
        | _ => s.fmReverse }

/-- R124, R230 (ports D8, D9; log entries 3, 4, 5): what a step does with each of the other presentations, and with none left: an Instruction for the encoder, each
direction of the multiplexer in isolation, and the idle step. -/
def Obligations.StepMakesOnePresentation : Prop :=
  (∀ (s : State) (i : Instr) (rest : List Presentation), s.pending = .insn i :: rest →
    step s = .next { s with
      pending := rest
      fmForward := some { insn := i, fields := place i }
      enc := some { insn := i, word := encode i }
      encoded := s.encoded ++ [encode i] }) ∧
  (∀ (s : State) (i : Instr) (rest : List Presentation), s.pending = .place i :: rest →
    step s = .next { s with pending := rest, fmForward := some { insn := i, fields := place i } }) ∧
  (∀ (s : State) (p : RiOpcode) (a b c : BitVec 4) (v : BitVec 14) (rest : List Presentation),
    s.pending = .unplace p a b c v :: rest →
    step s = .next { s with
      pending := rest
      fmReverse := some { op := p, a := a, b := b, c := c, v := v, result := fmResult p a b c v } }) ∧
  (∀ s : State, s.pending = [] → step s = .next s)

/-- R106, R115, C2: no state, reached by a run or not, makes the machine stop; each step uses up exactly the oldest presentation. -/
def Obligations.StepNeverStops : Prop :=
  ∀ s : State, ∃ t, step s = .next t ∧ t.pending = s.pending.tail

/-- The frame of every instruction (the block has no registers, flags, memory or program counter to change, R24 to R31): the decoder's ports, the reverse
multiplexer's, the presentations still to come and the recorded results are unchanged, and one word is added to the recorded words. -/
def Obligations.InstructionsChangeOnlyTheEncoderSide : Prop :=
  ∀ (i : Instr) (s t : State), exec i s = .next t →
    t.dec = s.dec ∧ t.fmReverse = s.fmReverse ∧ t.pending = s.pending ∧ t.results = s.results ∧
    ∃ w j, t.encoded = s.encoded ++ [w] ∧ t.enc = some { insn := i, word := w } ∧ decode w = .ok j

/-- R20, R31, R120: what a step delivers at the ports it drives depends on the input presented and on nothing else: two states that agree only
on that input, with any ports, records and later inputs, deliver the same. -/
def Obligations.OutputsDependOnlyOnTheInput : Prop :=
  ∀ (s s' t t' : State) (p : Presentation) (rest rest' : List Presentation),
    s.pending = p :: rest → s'.pending = p :: rest' → step s = .next t → step s' = .next t' →
    match p with
    | .word w => t.dec = t'.dec ∧
        (accepts w = true → t.enc = t'.enc ∧ t.fmForward = t'.fmForward) ∧
        (∀ q, opcodeOf (opcodeField w) = some (.ri q) → t.fmReverse = t'.fmReverse)
    | .insn _ => t.enc = t'.enc ∧ t.fmForward = t'.fmForward
    | .place _ => t.fmForward = t'.fmForward
    | .unplace _ _ _ _ _ => t.fmReverse = t'.fmReverse

/-- R209 [derived in the spec]: after an offending word the next word is decoded exactly as if the error had not happened, and there is no sticky
error: what the two steps leave at the decoder's and the encoder's ports is what the second alone leaves. -/
def Obligations.ErrorsLeaveNoTrace : Prop :=
  ∀ (s : State) (bad w : Word) (rest : List Presentation) (e : DecodeError), decode bad = .err e →
    ∃ t t', run 2 { s with pending := .word bad :: .word w :: rest } = .next t ∧
      run 1 { s with pending := .word w :: rest } = .next t' ∧
      t.dec = t'.dec ∧ t.enc = t'.enc ∧ t.fmForward = t'.fmForward ∧ t.encoded = t'.encoded ∧ t.pending = t'.pending

/-- R230, R106, R118: a step keeps the invariant: every output at the ports is the block's function of the input there, every recorded result is the
decoder's answer to a word, and every recorded word is the canonical encoding of a well-formed Instruction. -/
def Obligations.StepKeepsInvariant : Prop :=
  ∀ s t : State, CodecInv s → step s = .next t → CodecInv t

/-- The invariant holds after reset, where nothing is presented (log entry 6). -/
def Obligations.ResetMeetsInvariant : Prop := CodecInv State.reset

/-- R230, R233 (D9; log entries 3, 4): there is no initialisation sequence: with nothing presented, as after reset, any number of steps leaves every port and every
record as it is. -/
def Obligations.NothingHappensUntilPresented : Prop :=
  State.reset.pending = [] ∧ ∀ (k : Nat) (s : State), s.pending = [] → run k s = .next s

/-- D17, R118, R233: the end state of ANY sequence of words, from any state: the decoder's results for its words in order, and, re-encoded, exactly the
accepted words themselves, unchanged. -/
def Obligations.WordSequenceEndState : Prop :=
  ∀ (ws : List Word) (s : State) (rest : List Presentation), s.pending = ws.map .word ++ rest →
    ∃ t, run ws.length s = .next t ∧ t.pending = rest ∧
      t.results = s.results ++ ws.map decode ∧ t.encoded = s.encoded ++ ws.filter accepts

/-- D17, R117: any sequence of well-formed Instructions presented to the encoder, its words then presented to the decoder, comes back as the same
sequence of Instructions. -/
def Obligations.InstructionSequenceRoundTrip : Prop :=
  ∀ (is : List Instr) (s : State), (∀ i ∈ is, WellFormed i) → s.pending = is.map .insn →
    ∃ t, run is.length s = .next t ∧ t.encoded = s.encoded ++ is.map encode ∧
      ∃ u, run is.length { t with pending := (t.encoded.drop s.encoded.length).map .word } = .next u ∧
        u.results = s.results ++ is.map .ok ∧ u.encoded = t.encoded ++ is.map encode
end

