-- ==== Sys2Proof/Laws/Decode.lean ====
section
/-! SUPPORT. Laws/Decode: the small lemmas of the catalogs, of the fields of a word and of packing, so that a proof about `decode` and
`encode` unfolds none of them. -/

namespace Sys2Proof

@[simp] theorem registerOf_indexOf (r : Reg) : registerOf (indexOf r) = r := by cases r <;> rfl

@[simp] theorem indexOf_registerOf (n : BitVec 4) : indexOf (registerOf n) = n := by revert n; decide

@[simp] theorem opcodeOf_opcodeValue (p : Opcode) : opcodeOf (opcodeValue p) = some p := by
  rcases p with _ | p | _ | _
  · rfl
  · cases p <;> rfl
  · rfl
  · rfl

theorem opcodeValue_of_opcodeOf {v : BitVec 6} {p : Opcode} (h : opcodeOf v = some p) : opcodeValue p = v := by
  revert v
  rcases p with _ | p | _ | _
  · decide
  · cases p <;> decide
  · decide
  · decide

@[simp] theorem functOf_functValue (op : RrOp) : functOf (functValue op) = some op := by cases op <;> rfl

theorem functValue_of_functOf {f : BitVec 14} {op : RrOp} (h : functOf f = some op) : functValue op = f := by
  unfold functOf at h
  split at h <;> cases h <;> (apply BitVec.eq_of_toNat_eq; simp [functValue, *])

/-- An RR Instruction is the variant of exactly one operation. -/
theorem place_rrInstr (op : RrOp) (rd rs1 rs2 : Reg) :
    place (rrInstr op rd rs1 rs2) = .slotted 0x00 (indexOf rd) (indexOf rs1) (indexOf rs2) (functValue op) := by
  cases op <;> rfl

/-! ## Fields of a packed word -/

variable (op : BitVec 6) (a b c : BitVec 4) (low : BitVec 14) (off : BitVec 26)

@[simp] theorem opcodeField_pack_slotted : opcodeField (pack (.slotted op a b c low)) = op := by
  simp only [opcodeField, pack]; ext i hi; simp; grind

@[simp] theorem rdSlot_pack_slotted : rdSlot (pack (.slotted op a b c low)) = a := by
  simp only [rdSlot, pack]; ext i hi; simp; grind

@[simp] theorem rs1Slot_pack_slotted : rs1Slot (pack (.slotted op a b c low)) = b := by
  simp only [rs1Slot, pack]; ext i hi; simp; grind

@[simp] theorem rs2Slot_pack_slotted : rs2Slot (pack (.slotted op a b c low)) = c := by
  simp only [rs2Slot, pack]; ext i hi; simp; grind

@[simp] theorem lowField_pack_slotted : lowField (pack (.slotted op a b c low)) = low := by
  simp only [lowField, pack]; ext i hi; simp; grind

@[simp] theorem opcodeField_pack_long : opcodeField (pack (.long op off)) = op := by
  simp only [opcodeField, pack]; ext i hi; simp; grind

@[simp] theorem offField_pack_long : offField (pack (.long op off)) = off := by
  simp only [offField, pack]; ext i hi; simp; grind

/-- A word is its slotted fields packed. -/
theorem pack_slotted_fields (w : Word) :
    pack (.slotted (opcodeField w) (rdSlot w) (rs1Slot w) (rs2Slot w) (lowField w)) = w := by
  simp only [pack, opcodeField, rdSlot, rs1Slot, rs2Slot, lowField]
  ext i hi
  simp
  grind

/-- A word is its opcode and offset packed. -/
theorem pack_long_fields (w : Word) : pack (.long (opcodeField w) (offField w)) = w := by
  simp only [pack, opcodeField, offField]
  ext i hi
  simp
  grind

/-- A slotted word and its fields determine each other. -/
theorem eq_pack_slotted_iff (w : Word) :
    w = pack (.slotted op a b c low) ↔
      opcodeField w = op ∧ rdSlot w = a ∧ rs1Slot w = b ∧ rs2Slot w = c ∧ lowField w = low := by
  constructor
  · rintro rfl; simp
  · rintro ⟨rfl, rfl, rfl, rfl, rfl⟩; exact (pack_slotted_fields w).symm

/-- A J word and its fields determine each other. -/
theorem eq_pack_long_iff (w : Word) :
    w = pack (.long op off) ↔ opcodeField w = op ∧ offField w = off := by
  constructor
  · rintro rfl; simp
  · rintro ⟨rfl, rfl⟩; exact (pack_long_fields w).symm

/-! ## Signed fields -/

/-- The field of an extended immediate is the immediate field. -/
@[simp] theorem truncImm_sextImm (f : BitVec 14) : truncImm (sextImm f) = f := by
  simp only [truncImm, sextImm]; ext i hi; simp [BitVec.getLsbD_sshiftRight]; grind

/-- The field of an extended offset is the word's offset field. -/
@[simp] theorem truncJOff_sextJOff (w : Word) : truncJOff (sextJOff w) = offField w := by
  simp only [truncJOff, sextJOff, offField]; ext i hi; simp [BitVec.getLsbD_sshiftRight]; grind

/-! ## The must-be-zero checks -/

/-- One check passes exactly on index 0. -/
@[simp] theorem requireZero_eq_none (field : Slot) (v : BitVec 4) : requireZero field v = none ↔ v = 0 := by
  unfold requireZero; split <;> simp_all

/-- A failing check names its own slot and value. -/
@[simp] theorem requireZero_eq_some (field : Slot) (v : BitVec 4) (e : DecodeError) :
    requireZero field v = some e ↔ v ≠ 0 ∧ e = .reservedField field v := by
  unfold requireZero; split <;> grind

/-- What `fmResult` answers, by the result of the checks. -/
theorem fmResult_eq (p : RiOpcode) (a b c : BitVec 4) (v : BitVec 14) :
    fmResult p a b c v = (zeroSlotError p a b c).elim (.ok (unplace p a b c v)) .err := by
  unfold fmResult; cases zeroSlotError p a b c <;> rfl

end Sys2Proof
end

