-- ==== Sys2Proof/Laws/State.lean ====
section
/-! SUPPORT. Laws/State: what each update of the state does to each field, true by rfl, so that no later proof unfolds a record
update. -/

namespace Sys2Proof.Machine

@[simp] theorem withPending_fmForward (rest : List Presentation) (s : State) :
    (withPending rest s).fmForward = s.fmForward := rfl
@[simp] theorem withPending_fmReverse (rest : List Presentation) (s : State) :
    (withPending rest s).fmReverse = s.fmReverse := rfl
@[simp] theorem withPending_enc (rest : List Presentation) (s : State) :
    (withPending rest s).enc = s.enc := rfl
@[simp] theorem withPending_dec (rest : List Presentation) (s : State) :
    (withPending rest s).dec = s.dec := rfl
@[simp] theorem withPending_pending (rest : List Presentation) (s : State) :
    (withPending rest s).pending = rest := rfl
@[simp] theorem withPending_results (rest : List Presentation) (s : State) :
    (withPending rest s).results = s.results := rfl
@[simp] theorem withPending_encoded (rest : List Presentation) (s : State) :
    (withPending rest s).encoded = s.encoded := rfl

@[simp] theorem presentForward_fmForward (i : Instr) (s : State) :
    (presentForward i s).fmForward = some { insn := i, fields := place i } := rfl
@[simp] theorem presentForward_fmReverse (i : Instr) (s : State) :
    (presentForward i s).fmReverse = s.fmReverse := rfl
@[simp] theorem presentForward_enc (i : Instr) (s : State) :
    (presentForward i s).enc = s.enc := rfl
@[simp] theorem presentForward_dec (i : Instr) (s : State) :
    (presentForward i s).dec = s.dec := rfl
@[simp] theorem presentForward_pending (i : Instr) (s : State) :
    (presentForward i s).pending = s.pending := rfl
@[simp] theorem presentForward_results (i : Instr) (s : State) :
    (presentForward i s).results = s.results := rfl
@[simp] theorem presentForward_encoded (i : Instr) (s : State) :
    (presentForward i s).encoded = s.encoded := rfl

@[simp] theorem presentReverse_fmForward (op : RiOpcode) (a b c : BitVec 4) (v : BitVec 14) (s : State) :
    (presentReverse op a b c v s).fmForward = s.fmForward := rfl
@[simp] theorem presentReverse_fmReverse (op : RiOpcode) (a b c : BitVec 4) (v : BitVec 14) (s : State) :
    (presentReverse op a b c v s).fmReverse = some { op := op, a := a, b := b, c := c, v := v, result := fmResult op a b c v } := rfl
@[simp] theorem presentReverse_enc (op : RiOpcode) (a b c : BitVec 4) (v : BitVec 14) (s : State) :
    (presentReverse op a b c v s).enc = s.enc := rfl
@[simp] theorem presentReverse_dec (op : RiOpcode) (a b c : BitVec 4) (v : BitVec 14) (s : State) :
    (presentReverse op a b c v s).dec = s.dec := rfl
@[simp] theorem presentReverse_pending (op : RiOpcode) (a b c : BitVec 4) (v : BitVec 14) (s : State) :
    (presentReverse op a b c v s).pending = s.pending := rfl
@[simp] theorem presentReverse_results (op : RiOpcode) (a b c : BitVec 4) (v : BitVec 14) (s : State) :
    (presentReverse op a b c v s).results = s.results := rfl
@[simp] theorem presentReverse_encoded (op : RiOpcode) (a b c : BitVec 4) (v : BitVec 14) (s : State) :
    (presentReverse op a b c v s).encoded = s.encoded := rfl

@[simp] theorem deliverWord_fmForward (i : Instr) (w : Word) (s : State) :
    (deliverWord i w s).fmForward = s.fmForward := rfl
@[simp] theorem deliverWord_fmReverse (i : Instr) (w : Word) (s : State) :
    (deliverWord i w s).fmReverse = s.fmReverse := rfl
@[simp] theorem deliverWord_enc (i : Instr) (w : Word) (s : State) :
    (deliverWord i w s).enc = some { insn := i, word := w } := rfl
@[simp] theorem deliverWord_dec (i : Instr) (w : Word) (s : State) :
    (deliverWord i w s).dec = s.dec := rfl
@[simp] theorem deliverWord_pending (i : Instr) (w : Word) (s : State) :
    (deliverWord i w s).pending = s.pending := rfl
@[simp] theorem deliverWord_results (i : Instr) (w : Word) (s : State) :
    (deliverWord i w s).results = s.results := rfl
@[simp] theorem deliverWord_encoded (i : Instr) (w : Word) (s : State) :
    (deliverWord i w s).encoded = s.encoded ++ [w] := rfl

@[simp] theorem deliverResult_fmForward (w : Word) (r : Result) (s : State) :
    (deliverResult w r s).fmForward = s.fmForward := rfl
@[simp] theorem deliverResult_fmReverse (w : Word) (r : Result) (s : State) :
    (deliverResult w r s).fmReverse = s.fmReverse := rfl
@[simp] theorem deliverResult_enc (w : Word) (r : Result) (s : State) :
    (deliverResult w r s).enc = s.enc := rfl
@[simp] theorem deliverResult_dec (w : Word) (r : Result) (s : State) :
    (deliverResult w r s).dec = some { word := w, result := r } := rfl
@[simp] theorem deliverResult_pending (w : Word) (r : Result) (s : State) :
    (deliverResult w r s).pending = s.pending := rfl
@[simp] theorem deliverResult_results (w : Word) (r : Result) (s : State) :
    (deliverResult w r s).results = s.results ++ [r] := rfl
@[simp] theorem deliverResult_encoded (w : Word) (r : Result) (s : State) :
    (deliverResult w r s).encoded = s.encoded := rfl

@[simp] theorem encodedAs_fmForward (i : Instr) (f : Fields) (s : State) :
    (encodedAs i f s).fmForward = some { insn := i, fields := f } := rfl
@[simp] theorem encodedAs_fmReverse (i : Instr) (f : Fields) (s : State) :
    (encodedAs i f s).fmReverse = s.fmReverse := rfl
@[simp] theorem encodedAs_enc (i : Instr) (f : Fields) (s : State) :
    (encodedAs i f s).enc = some { insn := i, word := pack f } := rfl
@[simp] theorem encodedAs_dec (i : Instr) (f : Fields) (s : State) :
    (encodedAs i f s).dec = s.dec := rfl
@[simp] theorem encodedAs_pending (i : Instr) (f : Fields) (s : State) :
    (encodedAs i f s).pending = s.pending := rfl
@[simp] theorem encodedAs_results (i : Instr) (f : Fields) (s : State) :
    (encodedAs i f s).results = s.results := rfl
@[simp] theorem encodedAs_encoded (i : Instr) (f : Fields) (s : State) :
    (encodedAs i f s).encoded = s.encoded ++ [pack f] := rfl

end Sys2Proof.Machine
end

