-- ==== Sys2Proof/Laws/Ops.lean ====
section
/-! SUPPORT. Laws/Ops: one lemma per shared operation, saying once everything it can do; and what a step can do. -/

namespace Sys2Proof.Machine

/-- `driveEncoder` always answers a next state, and this one. -/
theorem driveEncoder_eq (i : Instr) (w : Word) (s : State) :
    driveEncoder i w s = .next { s with
      fmForward := some { insn := i, fields := place i }
      enc := some { insn := i, word := w }
      encoded := s.encoded ++ [w] } := rfl

/-- `driveReverse` changes the reverse multiplexer's ports alone, and only for a register-immediate word. -/
theorem driveReverse_eq (w : Word) (s : State) :
    (∃ p, opcodeOf (opcodeField w) = some (.ri p) ∧
      driveReverse w s = presentReverse p (rdSlot w) (rs1Slot w) (rs2Slot w) (lowField w) s) ∨
    ((∀ p, opcodeOf (opcodeField w) ≠ some (.ri p)) ∧ driveReverse w s = s) := by
  unfold driveReverse
  split
  · next p h => exact .inl ⟨p, h, rfl⟩
  · next h => exact .inr ⟨h, rfl⟩

@[simp] theorem driveReverse_fmForward (w : Word) (s : State) : (driveReverse w s).fmForward = s.fmForward := by
  unfold driveReverse; split <;> rfl

@[simp] theorem driveReverse_enc (w : Word) (s : State) : (driveReverse w s).enc = s.enc := by
  unfold driveReverse; split <;> rfl

@[simp] theorem driveReverse_dec (w : Word) (s : State) : (driveReverse w s).dec = s.dec := by
  unfold driveReverse; split <;> rfl

@[simp] theorem driveReverse_pending (w : Word) (s : State) : (driveReverse w s).pending = s.pending := by
  unfold driveReverse; split <;> rfl

@[simp] theorem driveReverse_results (w : Word) (s : State) : (driveReverse w s).results = s.results := by
  unfold driveReverse; split <;> rfl

@[simp] theorem driveReverse_encoded (w : Word) (s : State) : (driveReverse w s).encoded = s.encoded := by
  unfold driveReverse; split <;> rfl

/-- Accepting a word delivers `Ok`. -/
theorem acceptWord_eq (w : Word) (i : Instr) (s : State) :
    acceptWord w i s = deliverResult w (.ok i) (driveReverse w s) := rfl

/-- Raising an error delivers `Err`. -/
theorem raiseError_eq (w : Word) (e : DecodeError) (s : State) :
    raiseError w e s = deliverResult w (.err e) (driveReverse w s) := rfl

/-- Every meaning is one use of the encoder: the word differs from instruction to instruction, nothing else does. -/
theorem exec_drives (i : Instr) (s : State) : ∃ w, exec i s = driveEncoder i w s := by
  cases i <;> exact ⟨_, rfl⟩

/-- Everything a step can do, one case for each kind of presentation. -/
theorem step_cases {s t : State} (h : step s = .next t) :
    (s.pending = [] ∧ t = s) ∨
    (∃ w rest i, s.pending = .word w :: rest ∧ decode w = .ok i ∧
      exec i (acceptWord w i (withPending rest s)) = .next t) ∨
    (∃ w rest e, s.pending = .word w :: rest ∧ decode w = .err e ∧ t = raiseError w e (withPending rest s)) ∨
    (∃ i rest, s.pending = .insn i :: rest ∧ exec i (withPending rest s) = .next t) ∨
    (∃ i rest, s.pending = .place i :: rest ∧ t = presentForward i (withPending rest s)) ∨
    (∃ op a b c v rest, s.pending = .unplace op a b c v :: rest ∧
      t = presentReverse op a b c v (withPending rest s)) := by
  unfold step at h
  split at h
  · next hp => simp at h; exact .inl ⟨hp, h.symm⟩
  · next w rest hp =>
    split at h
    · next i hd => exact .inr (.inl ⟨w, rest, i, hp, hd, h⟩)
    · next e hd => simp at h; exact .inr (.inr (.inl ⟨w, rest, e, hp, hd, h.symm⟩))
  · next i rest hp => exact .inr (.inr (.inr (.inl ⟨i, rest, hp, h⟩)))
  · next i rest hp => simp at h; exact .inr (.inr (.inr (.inr (.inl ⟨i, rest, hp, h.symm⟩))))
  · next op a b c v rest hp =>
    simp at h; exact .inr (.inr (.inr (.inr (.inr ⟨op, a, b, c, v, rest, hp, h.symm⟩))))

/-- One step more of a run, when the first step answers. -/
theorem run_succ {s t : State} (k : Nat) (h : step s = .next t) : run (k + 1) s = run k t := by
  simp [run, h]

/-- `run` is the host's run of this machine. -/
theorem run_eq_core_run (k : Nat) (s : State) : run k s = Host.Core.run Sys2Proof.core k s := by
  induction k generalizing s with
  | zero => rfl
  | succ k ih =>
    refine Eq.trans ?_ (Host.Core.run.eq_2 Sys2Proof.core s k).symm
    have h : Sys2Proof.core.step s = step s := rfl
    rw [h, run]
    cases step s with
    | next t => exact ih t
    | fault r => rfl
    | refused r => rfl

end Sys2Proof.Machine
end

