-- ==== Sys2Proof/Laws/PerInstr.lean ====
section
/-! SUPPORT. Laws/PerInstr: the family `OpcodeField`: the top six bits of an instruction's word are the catalog's value of the opcode
that selects it (R64, R65), for every instruction, well-formed or not. -/

namespace Sys2Proof.Laws.OpcodeField

/-- The opcode identifier that selects a variant (R64). -/
def opcodeFor : Instr → Opcode
  | .add _ _ _ | .sub _ _ _ | .and _ _ _ | .or _ _ _ | .xor _ _ _ | .shl _ _ _ | .shr _ _ _ => .rr
  | .addi _ _ _ => .ri .addi
  | .load _ _ _ => .ri .load
  | .store _ _ _ => .ri .store
  | .beq _ _ _ => .ri .beq
  | .bne _ _ _ => .ri .bne
  | .blt _ _ _ => .ri .blt
  | .bge _ _ _ => .ri .bge
  | .ecall _ => .ri .ecall
  | .jal _ => .jal
  | .jump _ => .jump

/-- The opcode field of the instruction's word is its opcode's value. -/
def Statement (i : Instr) : Prop := opcodeField (encode i) = opcodeValue (opcodeFor i)

theorem add (rd rs1 rs2 : Reg) : Statement (.add rd rs1 rs2) := by
  simp [Statement, encode, place, opcodeFor, opcodeValue]

theorem sub (rd rs1 rs2 : Reg) : Statement (.sub rd rs1 rs2) := by
  simp [Statement, encode, place, opcodeFor, opcodeValue]

theorem and (rd rs1 rs2 : Reg) : Statement (.and rd rs1 rs2) := by
  simp [Statement, encode, place, opcodeFor, opcodeValue]

theorem or (rd rs1 rs2 : Reg) : Statement (.or rd rs1 rs2) := by
  simp [Statement, encode, place, opcodeFor, opcodeValue]

theorem xor (rd rs1 rs2 : Reg) : Statement (.xor rd rs1 rs2) := by
  simp [Statement, encode, place, opcodeFor, opcodeValue]

theorem shl (rd rs1 rs2 : Reg) : Statement (.shl rd rs1 rs2) := by
  simp [Statement, encode, place, opcodeFor, opcodeValue]

theorem shr (rd rs1 rs2 : Reg) : Statement (.shr rd rs1 rs2) := by
  simp [Statement, encode, place, opcodeFor, opcodeValue]

theorem addi (x y : Reg) (v : Imm) : Statement (.addi x y v) := by
  simp [Statement, encode, place, opcodeFor, opcodeValue]

theorem load (x y : Reg) (v : Imm) : Statement (.load x y v) := by
  simp [Statement, encode, place, opcodeFor, opcodeValue]

theorem store (x y : Reg) (v : Imm) : Statement (.store x y v) := by
  simp [Statement, encode, place, opcodeFor, opcodeValue]

theorem beq (x y : Reg) (v : Imm) : Statement (.beq x y v) := by
  simp [Statement, encode, place, opcodeFor, opcodeValue]

theorem bne (x y : Reg) (v : Imm) : Statement (.bne x y v) := by
  simp [Statement, encode, place, opcodeFor, opcodeValue]

theorem blt (x y : Reg) (v : Imm) : Statement (.blt x y v) := by
  simp [Statement, encode, place, opcodeFor, opcodeValue]

theorem bge (x y : Reg) (v : Imm) : Statement (.bge x y v) := by
  simp [Statement, encode, place, opcodeFor, opcodeValue]

theorem ecall (v : Imm) : Statement (.ecall v) := by
  simp [Statement, encode, place, opcodeFor, opcodeValue]

theorem jal (o : JOff) : Statement (.jal o) := by
  simp [Statement, encode, place, opcodeFor, opcodeValue]

theorem jump (o : JOff) : Statement (.jump o) := by
  simp [Statement, encode, place, opcodeFor, opcodeValue]

end Sys2Proof.Laws.OpcodeField
end

