-- ==== Sys2Proof/Tests/Slice0.lean ====
section
/-! SUPPORT. Tests/Slice0: the model's own tests. Expected values are the spec's: the source's worked examples (95_test_vectors.md S1 to
S10), its derived vectors (section 2) and words written bit by bit from the formats of R61 to R63. Nothing here is pasted from the
model's answers. The `test_witness_` theorems show, for each statement with hypotheses, a concrete input that meets them all. -/

namespace Sys2Proof.Tests

open Sys2Proof.Machine

/-! ## Well-formedness (R81): an ill-formed term for each check is refused, the ends of each range are accepted -/

theorem test_wf_imm_too_big : wellFormed (.addi .r1 .r2 8192) = false := by decide
theorem test_wf_imm_too_small : wellFormed (.addi .r1 .r2 (-8193)) = false := by decide
theorem test_wf_load_offset : wellFormed (.load .r1 .r2 16384) = false := by decide
theorem test_wf_store_offset : wellFormed (.store .r1 .r2 (-32768)) = false := by decide
theorem test_wf_branch_offset :
    [wellFormed (.beq .r1 .r2 8192), wellFormed (.bne .r1 .r2 8192), wellFormed (.blt .r1 .r2 (-8193)),
      wellFormed (.bge .r1 .r2 32767)] = [false, false, false, false] := by decide
theorem test_wf_ecall_imm : wellFormed (.ecall 16384) = false := by decide
theorem test_wf_jal_too_big : wellFormed (.jal 33554432) = false := by decide
theorem test_wf_jal_too_small : wellFormed (.jal (-33554433)) = false := by decide
theorem test_wf_jump_offset : wellFormed (.jump 2147483647) = false := by decide
theorem test_wf_imm_ends : WellFormed (.addi .r1 .r2 8191) ∧ WellFormed (.addi .r1 .r2 (-8192)) := by decide
theorem test_wf_joff_ends : WellFormed (.jal 33554431) ∧ WellFormed (.jump (-33554432)) := by decide

/-! ## The parameters of rule R5 -/

theorem test_widths : Config.opcodeWidth + 3 * Config.regWidth + Config.immWidth = Config.wordWidth ∧
    Config.opcodeWidth + 3 * Config.regWidth + Config.functWidth = Config.wordWidth ∧
    Config.opcodeWidth + Config.joffWidth = Config.wordWidth := by decide
theorem test_counts : 2 ^ Config.regWidth = Config.numRegs ∧
    Config.numOpcodes + Config.numReservedOpcodes = 2 ^ Config.opcodeWidth ∧
    Config.numFunct + 8 + 2 = Config.numVariants := by decide

/-! ## Words written out bit by bit, one per constructor: opcode, rd-slot, rs1-slot, rs2-slot, low 14; or opcode, offset -/

/-- 95_test_vectors.md S1. -/
theorem test_decode_add : decode 0b000000_0001_0010_0011_00000000000001 = .ok (.add .r1 .r2 .r3) ∧ encode (.add .r1 .r2 .r3) = 0b000000_0001_0010_0011_00000000000001 := by decide
/-- 95_test_vectors.md 2.1. -/
theorem test_decode_sub : decode 0b000000_0100_0101_0110_00000000000010 = .ok (.sub .r4 .r5 .r6) ∧ encode (.sub .r4 .r5 .r6) = 0b000000_0100_0101_0110_00000000000010 := by decide
/-- 95_test_vectors.md 2.1. -/
theorem test_decode_and : decode 0b000000_0111_1000_1001_00000000000011 = .ok (.and .r7 .r8 .r9) ∧ encode (.and .r7 .r8 .r9) = 0b000000_0111_1000_1001_00000000000011 := by decide
/-- 95_test_vectors.md 2.1. -/
theorem test_decode_or : decode 0b000000_1010_1011_1100_00000000000100 = .ok (.or .r10 .r11 .r12) ∧ encode (.or .r10 .r11 .r12) = 0b000000_1010_1011_1100_00000000000100 := by decide
/-- 95_test_vectors.md 2.1. -/
theorem test_decode_xor : decode 0b000000_1101_1110_1111_00000000000101 = .ok (.xor .r13 .r14 .r15) ∧ encode (.xor .r13 .r14 .r15) = 0b000000_1101_1110_1111_00000000000101 := by decide
/-- 95_test_vectors.md 2.1. -/
theorem test_decode_shl : decode 0b000000_1111_0000_0001_00000000000110 = .ok (.shl .r15 .r0 .r1) ∧ encode (.shl .r15 .r0 .r1) = 0b000000_1111_0000_0001_00000000000110 := by decide
/-- 95_test_vectors.md 2.1. -/
theorem test_decode_shr : decode 0b000000_0000_1111_1111_00000000000111 = .ok (.shr .r0 .r15 .r15) ∧ encode (.shr .r0 .r15 .r15) = 0b000000_0000_1111_1111_00000000000111 := by decide
/-- 95_test_vectors.md S4. -/
theorem test_decode_addi : decode 0b000001_0001_0010_0000_11111111111111 = .ok (.addi .r1 .r2 (-1)) ∧ encode (.addi .r1 .r2 (-1)) = 0b000001_0001_0010_0000_11111111111111 := by decide
/-- 95_test_vectors.md 2.2. -/
theorem test_decode_load : decode 0b000010_0100_0101_0000_11111111111100 = .ok (.load .r4 .r5 (-4)) ∧ encode (.load .r4 .r5 (-4)) = 0b000010_0100_0101_0000_11111111111100 := by decide
/-- 95_test_vectors.md 2.2. -/
theorem test_decode_store : decode 0b000011_0110_0111_0000_00000000001000 = .ok (.store .r6 .r7 8) ∧ encode (.store .r6 .r7 8) = 0b000011_0110_0111_0000_00000000001000 := by decide
/-- 95_test_vectors.md 2.2. -/
theorem test_decode_beq : decode 0b000100_0000_0001_0010_00000000000011 = .ok (.beq .r1 .r2 3) ∧ encode (.beq .r1 .r2 3) = 0b000100_0000_0001_0010_00000000000011 := by decide
/-- 95_test_vectors.md 2.2. -/
theorem test_decode_bne : decode 0b000101_0000_0001_0010_11111111111110 = .ok (.bne .r1 .r2 (-2)) ∧ encode (.bne .r1 .r2 (-2)) = 0b000101_0000_0001_0010_11111111111110 := by decide
/-- 95_test_vectors.md 2.2. -/
theorem test_decode_blt : decode 0b000110_0000_1000_1001_00000001100100 = .ok (.blt .r8 .r9 100) ∧ encode (.blt .r8 .r9 100) = 0b000110_0000_1000_1001_00000001100100 := by decide
/-- 95_test_vectors.md 2.2. -/
theorem test_decode_bge : decode 0b000111_0000_1111_1111_10000000000000 = .ok (.bge .r15 .r15 (-8192)) ∧ encode (.bge .r15 .r15 (-8192)) = 0b000111_0000_1111_1111_10000000000000 := by decide
/-- 95_test_vectors.md 2.2. -/
theorem test_decode_ecall : decode 0b001010_0000_0000_0000_00000001011101 = .ok (.ecall 93) ∧ encode (.ecall 93) = 0b001010_0000_0000_0000_00000001011101 := by decide
/-- 95_test_vectors.md S2. -/
theorem test_decode_jal : decode 0b001000_11111111111111111111111111 = .ok (.jal (-1)) ∧ encode (.jal (-1)) = 0b001000_11111111111111111111111111 := by decide
/-- 95_test_vectors.md 2.3. -/
theorem test_decode_jump : decode 0b001001_00000000000000000000010000 = .ok (.jump 16) ∧ encode (.jump 16) = 0b001001_00000000000000000000010000 := by decide

/-! ## More vectors of the spec, in both directions (95_test_vectors.md section 2): the corners of each field -/

theorem test_vectors_add : ∀ v ∈ ([(.add .r0 .r0 .r0, 0x00000001), (.add .r15 .r15 .r15, 0x03FFC001), (.add .r8 .r0 .r0, 0x02000001), (.add .r0 .r8 .r0, 0x00200001), (.add .r0 .r0 .r8, 0x00020001), (.add .r0 .r0 .r1, 0x00004001)] : List (Instr × Word)),
    encode v.1 = v.2 ∧ decode v.2 = .ok v.1 := by decide
theorem test_vectors_shr : ∀ v ∈ ([(.shr .r0 .r0 .r0, 0x00000007), (.shr .r15 .r15 .r15, 0x03FFC007)] : List (Instr × Word)),
    encode v.1 = v.2 ∧ decode v.2 = .ok v.1 := by decide
theorem test_vectors_xor : ∀ v ∈ ([(.xor .r2 .r2 .r2, 0x00888005)] : List (Instr × Word)),
    encode v.1 = v.2 ∧ decode v.2 = .ok v.1 := by decide
theorem test_vectors_addi : ∀ v ∈ ([(.addi .r1 .r2 8191, 0x04481FFF), (.addi .r1 .r2 (-8192), 0x04482000), (.addi .r0 .r0 0, 0x04000000), (.addi .r15 .r15 (-8192), 0x07FC2000), (.addi .r3 .r0 8191, 0x04C01FFF)] : List (Instr × Word)),
    encode v.1 = v.2 ∧ decode v.2 = .ok v.1 := by decide
theorem test_vectors_load : ∀ v ∈ ([(.load .r4 .r5 12, 0x0914000C), (.load .r9 .r9 0, 0x0A640000), (.load .r15 .r0 8191, 0x0BC01FFF)] : List (Instr × Word)),
    encode v.1 = v.2 ∧ decode v.2 = .ok v.1 := by decide
theorem test_vectors_store : ∀ v ∈ ([(.store .r6 .r7 (-8192), 0x0D9C2000), (.store .r0 .r1 (-1), 0x0C043FFF), (.store .r15 .r15 8191, 0x0FFC1FFF)] : List (Instr × Word)),
    encode v.1 = v.2 ∧ decode v.2 = .ok v.1 := by decide
theorem test_vectors_beq : ∀ v ∈ ([(.beq .r1 .r3 (-1), 0x1004FFFF), (.beq .r0 .r0 0, 0x10000000)] : List (Instr × Word)),
    encode v.1 = v.2 ∧ decode v.2 = .ok v.1 := by decide
theorem test_vectors_bne : ∀ v ∈ ([(.bne .r0 .r15 1, 0x1403C001)] : List (Instr × Word)),
    encode v.1 = v.2 ∧ decode v.2 = .ok v.1 := by decide
theorem test_vectors_blt : ∀ v ∈ ([(.blt .r15 .r0 (-1), 0x183C3FFF)] : List (Instr × Word)),
    encode v.1 = v.2 ∧ decode v.2 = .ok v.1 := by decide
theorem test_vectors_bge : ∀ v ∈ ([(.bge .r10 .r11 8191, 0x1C2ADFFF)] : List (Instr × Word)),
    encode v.1 = v.2 ∧ decode v.2 = .ok v.1 := by decide
theorem test_vectors_ecall : ∀ v ∈ ([(.ecall 0, 0x28000000), (.ecall (-1), 0x28003FFF), (.ecall 8191, 0x28001FFF), (.ecall (-8192), 0x28002000)] : List (Instr × Word)),
    encode v.1 = v.2 ∧ decode v.2 = .ok v.1 := by decide
theorem test_vectors_jal : ∀ v ∈ ([(.jal 0, 0x20000000), (.jal 33554431, 0x21FFFFFF), (.jal (-33554432), 0x22000000), (.jal (-2), 0x23FFFFFE)] : List (Instr × Word)),
    encode v.1 = v.2 ∧ decode v.2 = .ok v.1 := by decide
theorem test_vectors_jump : ∀ v ∈ ([(.jump 33554431, 0x25FFFFFF), (.jump (-33554432), 0x26000000), (.jump (-3), 0x27FFFFFD)] : List (Instr × Word)),
    encode v.1 = v.2 ∧ decode v.2 = .ok v.1 := by decide

/-! ## Near-miss words and reserved words (R148, R169, R193; 95_test_vectors.md S5 to S7, 2.1, 2.2, 2.4) -/

theorem test_reserved_funct :
    decode 0x00000000 = .err (.reservedFunct 0x0000) ∧ decode 0x0048C000 = .err (.reservedFunct 0x0000) ∧
    decode 0x0048C008 = .err (.reservedFunct 0x0008) ∧ decode 0x0048E001 = .err (.reservedFunct 0x2001) ∧
    decode 0x00003FFF = .err (.reservedFunct 0x3FFF) ∧ decode 0x03FFFFFF = .err (.reservedFunct 0x3FFF) ∧
    decode 0x0048C009 = .err (.reservedFunct 0x0009) := by decide

theorem test_reserved_field_rs2 :
    decode 0x04484005 = .err (.reservedField .rs2 1) ∧ decode 0x0448C005 = .err (.reservedField .rs2 3) ∧
    decode 0x0448C001 = .err (.reservedField .rs2 3) ∧ decode 0x0448BFFF = .err (.reservedField .rs2 2) ∧
    decode 0x0448FFFF = .err (.reservedField .rs2 3) ∧ decode 0x0403C000 = .err (.reservedField .rs2 15) ∧
    decode 0x0914400C = .err (.reservedField .rs2 1) ∧ decode 0x0D9FC008 = .err (.reservedField .rs2 15) ∧
    decode 0x2800C000 = .err (.reservedField .rs2 3) ∧ decode 0x2800FFFF = .err (.reservedField .rs2 3) := by decide

theorem test_reserved_field_rd :
    decode 0x10448003 = .err (.reservedField .rd 1) ∧ decode 0x14400000 = .err (.reservedField .rd 1) ∧
    decode 0x18400000 = .err (.reservedField .rd 1) ∧ decode 0x1FC00000 = .err (.reservedField .rd 15) ∧
    decode 0x28400000 = .err (.reservedField .rd 1) ∧ decode 0x29158007 = .err (.reservedField .rd 4) ∧
    decode 0x2BFFFFFF = .err (.reservedField .rd 15) ∧ decode 0x1044FFFF = .err (.reservedField .rd 1) := by decide

theorem test_reserved_field_rs1 :
    decode 0x28080000 = .err (.reservedField .rs1 2) ∧ decode 0x28158007 = .err (.reservedField .rs1 5) ∧
    decode 0x28040000 = .err (.reservedField .rs1 1) := by decide

theorem test_reserved_opcode :
    decode 0x2C000000 = .err (.reservedOpcode 0x0B) ∧ decode 0x2FFFFFFF = .err (.reservedOpcode 0x0B) ∧
    decode 0x33FFFFFF = .err (.reservedOpcode 0x0C) ∧ decode 0x80000000 = .err (.reservedOpcode 0x20) ∧
    decode 0xFC000000 = .err (.reservedOpcode 0x3F) ∧ decode 0xFFFFFFFF = .err (.reservedOpcode 0x3F) := by decide

/-- Encoder inputs outside the invariant (R107, 95_test_vectors.md 2.2 and 2.3). -/
theorem test_truncation :
    encode (.addi .r1 .r2 8192) = 0x04482000 ∧ encode (.addi .r1 .r2 (-8193)) = 0x04481FFF ∧
    encode (.ecall 16384) = 0x28000000 ∧ encode (.jal 33554432) = 0x22000000 ∧
    encode (.jump (-33554433)) = 0x25FFFFFF := by decide

/-! ## The field multiplexer in isolation (95_test_vectors.md 2.5) -/

theorem test_place_rows :
    place (.add .r1 .r2 .r3) = .slotted 0x00 1 2 3 0x0001 ∧ place (.addi .r1 .r2 (-1)) = .slotted 0x01 1 2 0 0x3FFF ∧
    place (.load .r4 .r5 12) = .slotted 0x02 4 5 0 0x000C ∧ place (.store .r6 .r7 8) = .slotted 0x03 6 7 0 0x0008 ∧
    place (.beq .r1 .r2 3) = .slotted 0x04 0 1 2 0x0003 ∧ place (.ecall 93) = .slotted 0x0A 0 0 0 0x005D ∧
    place (.jal (-1)) = .long 0x08 0x3FFFFFF := by decide

theorem test_unplace_rows :
    fmResult .addi 1 2 0 0x3FFF = .ok (.addi .r1 .r2 (-1)) ∧ fmResult .store 6 7 0 8 = .ok (.store .r6 .r7 8) ∧
    fmResult .beq 0 1 2 3 = .ok (.beq .r1 .r2 3) ∧ fmResult .ecall 0 0 0 0x5D = .ok (.ecall 93) ∧
    fmResult .addi 1 2 3 0x3FFF = .err (.reservedField .rs2 3) ∧
    fmResult .beq 9 1 2 3 = .err (.reservedField .rd 9) := by decide

/-! ## The error signals (R124, R205) -/

theorem test_error_signals :
    errKind (.reservedOpcode 0x3F) = 0 ∧ errValue (.reservedOpcode 0x3F) = 0x003F ∧
    errKind (.reservedFunct 0x2001) = 1 ∧ errValue (.reservedFunct 0x2001) = 0x2001 ∧
    errKind (.reservedField .rs1 5) = 2 ∧ errField 3 (.reservedField .rs1 5) = 1 ∧ errValue (.reservedField .rs1 5) = 5 ∧
    errKind (.invalidRegister .rs2 0) = 3 ∧ slotName .rs2 = "rs2" := by decide

/-! ## One step of the machine -/

/-- A small state: the given presentations, and ports and records already used. -/
def usedState (ps : List Presentation) : State where
  fmForward := some { insn := .jal 0, fields := .long 0x08 0 }
  fmReverse := none
  enc := some { insn := .jal 0, word := 0x20000000 }
  dec := none
  pending := ps
  results := [.ok (.jal 0)]
  encoded := [0x20000000]

/-- P4 position 0: the word decodes, and its instruction re-encodes to the same word. -/
theorem test_step_accepted_word :
    ∃ t, step (usedState [.word 0x04480005]) = .next t ∧
      t.dec = some { word := 0x04480005, result := .ok (.addi .r1 .r2 5) } ∧
      t.enc = some { insn := .addi .r1 .r2 5, word := 0x04480005 } ∧
      t.results = [.ok (.jal 0), .ok (.addi .r1 .r2 5)] ∧ t.encoded = [0x20000000, 0x04480005] :=
  ⟨_, rfl, by decide, by decide, by decide, by decide⟩

/-- P4 position 1: a rejected word is a value at the decoder's ports; the encoder's ports and record are untouched. -/
theorem test_step_rejected_word :
    ∃ t, step (usedState [.word 0x0448C005]) = .next t ∧
      t.dec = some { word := 0x0448C005, result := .err (.reservedField .rs2 3) } ∧
      t.enc = some { insn := .jal 0, word := 0x20000000 } ∧ t.encoded = [0x20000000] :=
  ⟨_, rfl, by decide, by decide, by decide⟩

/-- P1 position 4, encoder direction. -/
theorem test_step_instruction :
    ∃ t, step (usedState [.insn (.bne .r2 .r0 (-3))]) = .next t ∧
      t.enc = some { insn := .bne .r2 .r0 (-3), word := 0x14083FFD } ∧ t.dec = none :=
  ⟨_, rfl, by decide, by decide⟩

/-! ## Each meaning on one instruction: `enc_word` (95_test_vectors.md 2.1, 2.2 and P5) -/

theorem test_exec_add : ∃ t, exec (.add .r1 .r2 .r3) (usedState []) = .next t ∧ t.enc = some { insn := .add .r1 .r2 .r3, word := 0x0048C001 } :=
  ⟨_, rfl, by decide⟩
theorem test_exec_sub : ∃ t, exec (.sub .r1 .r2 .r3) (usedState []) = .next t ∧ t.enc = some { insn := .sub .r1 .r2 .r3, word := 0x0048C002 } :=
  ⟨_, rfl, by decide⟩
theorem test_exec_and : ∃ t, exec (.and .r1 .r2 .r3) (usedState []) = .next t ∧ t.enc = some { insn := .and .r1 .r2 .r3, word := 0x0048C003 } :=
  ⟨_, rfl, by decide⟩
theorem test_exec_or : ∃ t, exec (.or .r1 .r2 .r3) (usedState []) = .next t ∧ t.enc = some { insn := .or .r1 .r2 .r3, word := 0x0048C004 } :=
  ⟨_, rfl, by decide⟩
theorem test_exec_xor : ∃ t, exec (.xor .r1 .r2 .r3) (usedState []) = .next t ∧ t.enc = some { insn := .xor .r1 .r2 .r3, word := 0x0048C005 } :=
  ⟨_, rfl, by decide⟩
theorem test_exec_shl : ∃ t, exec (.shl .r1 .r2 .r3) (usedState []) = .next t ∧ t.enc = some { insn := .shl .r1 .r2 .r3, word := 0x0048C006 } :=
  ⟨_, rfl, by decide⟩
theorem test_exec_shr : ∃ t, exec (.shr .r1 .r2 .r3) (usedState []) = .next t ∧ t.enc = some { insn := .shr .r1 .r2 .r3, word := 0x0048C007 } :=
  ⟨_, rfl, by decide⟩
theorem test_exec_addi : ∃ t, exec (.addi .r9 .r6 (-2)) (usedState []) = .next t ∧ t.enc = some { insn := .addi .r9 .r6 (-2), word := 0x06583FFE } :=
  ⟨_, rfl, by decide⟩
theorem test_exec_load : ∃ t, exec (.load .r9 .r6 (-2)) (usedState []) = .next t ∧ t.enc = some { insn := .load .r9 .r6 (-2), word := 0x0A583FFE } :=
  ⟨_, rfl, by decide⟩
theorem test_exec_store : ∃ t, exec (.store .r9 .r6 (-2)) (usedState []) = .next t ∧ t.enc = some { insn := .store .r9 .r6 (-2), word := 0x0E583FFE } :=
  ⟨_, rfl, by decide⟩
theorem test_exec_beq : ∃ t, exec (.beq .r9 .r6 (-2)) (usedState []) = .next t ∧ t.enc = some { insn := .beq .r9 .r6 (-2), word := 0x1025BFFE } :=
  ⟨_, rfl, by decide⟩
theorem test_exec_bne : ∃ t, exec (.bne .r9 .r6 (-2)) (usedState []) = .next t ∧ t.enc = some { insn := .bne .r9 .r6 (-2), word := 0x1425BFFE } :=
  ⟨_, rfl, by decide⟩
theorem test_exec_blt : ∃ t, exec (.blt .r9 .r6 (-2)) (usedState []) = .next t ∧ t.enc = some { insn := .blt .r9 .r6 (-2), word := 0x1825BFFE } :=
  ⟨_, rfl, by decide⟩
theorem test_exec_bge : ∃ t, exec (.bge .r9 .r6 (-2)) (usedState []) = .next t ∧ t.enc = some { insn := .bge .r9 .r6 (-2), word := 0x1C25BFFE } :=
  ⟨_, rfl, by decide⟩
theorem test_exec_ecall : ∃ t, exec (.ecall 1) (usedState []) = .next t ∧ t.enc = some { insn := .ecall 1, word := 0x28000001 } :=
  ⟨_, rfl, by decide⟩
theorem test_exec_jal : ∃ t, exec (.jal (-2)) (usedState []) = .next t ∧ t.enc = some { insn := .jal (-2), word := 0x23FFFFFE } :=
  ⟨_, rfl, by decide⟩
theorem test_exec_jump : ∃ t, exec (.jump (-2)) (usedState []) = .next t ∧ t.enc = some { insn := .jump (-2), word := 0x27FFFFFE } :=
  ⟨_, rfl, by decide⟩

/-! ## Witnesses: each statement's hypotheses are met, each clause at a boundary of its range -/

theorem test_witness_OpcodeCatalogAcceptsElevenValues :
    opcodeOf 0x00 = some .rr ∧ opcodeOf 0x0A = some (.ri .ecall) ∧ opcodeOf 0x0B = none ∧ opcodeOf 0x3F = none := by decide
theorem test_witness_FunctCatalogAcceptsSevenCodes :
    functOf 0x0000 = none ∧ functOf 0x0001 = some .add ∧ functOf 0x0007 = some .shr ∧ functOf 0x0008 = none ∧
    functOf 0x3FFF = none := by decide
theorem test_witness_SignedFieldsTruncateAndExtend :
    immInRange 8191 = true ∧ immInRange 8192 = false ∧ immInRange (-8192) = true ∧ immInRange (-8193) = false ∧
    joffInRange 33554431 = true ∧ joffInRange 33554432 = false ∧ joffInRange (-33554432) = true ∧
    joffInRange (-33554433) = false := by decide
theorem test_witness_RegisterRegisterFamilyRule :
    (opcodeField 0x00000001 = 0x00 ∧ lowField 0x00000001 = functValue .add) ∧
    (opcodeField 0x03FFC007 = 0x00 ∧ lowField 0x03FFC007 = functValue .shr) ∧
    (opcodeField 0x00000008 = 0x00 ∧ lowField 0x00000008 = 8) ∧ opcodeField 0x03FFFFFF = 0x00 := by decide
theorem test_witness_AddEncodesAndDecodes :
    opcodeField 0x03FFC001 = 0x00 ∧ lowField 0x03FFC001 = 0x0001 ∧ (0x03FFC001 : Word) &&& 0xFC003FFF = 0x00000001 := by decide
theorem test_witness_SubEncodesAndDecodes :
    opcodeField 0x01158002 = 0x00 ∧ lowField 0x01158002 = 0x0002 ∧ (0x01158002 : Word) &&& 0xFC003FFF = 0x00000002 := by decide
theorem test_witness_AndEncodesAndDecodes :
    opcodeField 0x01E24003 = 0x00 ∧ lowField 0x01E24003 = 0x0003 ∧ (0x01E24003 : Word) &&& 0xFC003FFF = 0x00000003 := by decide
theorem test_witness_OrEncodesAndDecodes :
    opcodeField 0x02AF0004 = 0x00 ∧ lowField 0x02AF0004 = 0x0004 ∧ (0x02AF0004 : Word) &&& 0xFC003FFF = 0x00000004 := by decide
theorem test_witness_XorEncodesAndDecodes :
    opcodeField 0x037BC005 = 0x00 ∧ lowField 0x037BC005 = 0x0005 ∧ (0x037BC005 : Word) &&& 0xFC003FFF = 0x00000005 := by decide
theorem test_witness_ShlEncodesAndDecodes :
    opcodeField 0x03C04006 = 0x00 ∧ lowField 0x03C04006 = 0x0006 ∧ (0x03C04006 : Word) &&& 0xFC003FFF = 0x00000006 := by decide
theorem test_witness_ShrEncodesAndDecodes :
    opcodeField 0x003FC007 = 0x00 ∧ lowField 0x003FC007 = 0x0007 ∧ (0x003FC007 : Word) &&& 0xFC003FFF = 0x00000007 := by decide
theorem test_witness_AddiEncodesAndDecodes :
    (opcodeField 0x07FC2000 = 0x01 ∧ rs2Slot 0x07FC2000 = 0) ∧ (opcodeField 0x0448C005 = 0x01 ∧ rs2Slot 0x0448C005 ≠ 0) ∧
    (0x07FC2000 : Word) &&& 0xFC03C000 = 0x04000000 := by decide
theorem test_witness_LoadEncodesAndDecodes :
    (opcodeField 0x0BC01FFF = 0x02 ∧ rs2Slot 0x0BC01FFF = 0) ∧ (opcodeField 0x0914400C = 0x02 ∧ rs2Slot 0x0914400C ≠ 0) ∧
    (0x0BC01FFF : Word) &&& 0xFC03C000 = 0x08000000 := by decide
theorem test_witness_StoreEncodesAndDecodes :
    (opcodeField 0x0FFC1FFF = 0x03 ∧ rs2Slot 0x0FFC1FFF = 0) ∧ (opcodeField 0x0D9FC008 = 0x03 ∧ rs2Slot 0x0D9FC008 ≠ 0) ∧
    (0x0FFC1FFF : Word) &&& 0xFC03C000 = 0x0C000000 := by decide
theorem test_witness_BeqEncodesAndDecodes :
    (opcodeField 0x1004FFFF = 0x04 ∧ rdSlot 0x1004FFFF = 0) ∧ (opcodeField 0x10448003 = 0x04 ∧ rdSlot 0x10448003 ≠ 0) ∧
    (0x1004FFFF : Word) &&& 0xFFC00000 = 0x10000000 := by decide
theorem test_witness_BneEncodesAndDecodes :
    (opcodeField 0x1403C001 = 0x05 ∧ rdSlot 0x1403C001 = 0) ∧ (opcodeField 0x14400000 = 0x05 ∧ rdSlot 0x14400000 ≠ 0) ∧
    (0x1403C001 : Word) &&& 0xFFC00000 = 0x14000000 := by decide
theorem test_witness_BltEncodesAndDecodes :
    (opcodeField 0x183C3FFF = 0x06 ∧ rdSlot 0x183C3FFF = 0) ∧ (opcodeField 0x18400000 = 0x06 ∧ rdSlot 0x18400000 ≠ 0) ∧
    (0x183C3FFF : Word) &&& 0xFFC00000 = 0x18000000 := by decide
theorem test_witness_BgeEncodesAndDecodes :
    (opcodeField 0x1C3FE000 = 0x07 ∧ rdSlot 0x1C3FE000 = 0) ∧ (opcodeField 0x1FC00000 = 0x07 ∧ rdSlot 0x1FC00000 ≠ 0) ∧
    (0x1C3FE000 : Word) &&& 0xFFC00000 = 0x1C000000 := by decide
theorem test_witness_EcallEncodesAndDecodes :
    opcodeField 0x28003FFF = 0x0A ∧ opcodeField 0x29158007 = 0x0A ∧ (0x28003FFF : Word) &&& 0xFFFFC000 = 0x28000000 := by decide
theorem test_witness_JalEncodesAndDecodes :
    opcodeField 0x22000000 = 0x08 ∧ opcodeField 0x23FFFFFF = 0x08 ∧ (0x23FFFFFF : Word) &&& 0xFC000000 = 0x20000000 := by decide
theorem test_witness_JumpEncodesAndDecodes :
    opcodeField 0x26000000 = 0x09 ∧ opcodeField 0x27FFFFFF = 0x09 ∧ (0x27FFFFFF : Word) &&& 0xFC000000 = 0x24000000 := by decide
theorem test_witness_JumpPathSignExtendsByShifting :
    opcodeOf (opcodeField 0x22000000) = some .jal ∧ opcodeOf (opcodeField 0x26000000) = some .jump := by decide
theorem test_witness_JumpOffsetIsStoredUnscaled :
    WellFormed (.jal (-33554432)) ∧ WellFormed (.jal 33554431) ∧ decode 0x22000000 = .ok (.jal (-33554432)) ∧
    decode 0x25FFFFFF = .ok (.jump 33554431) := by decide
theorem test_witness_EncoderIsTotalAndItsWordsAreValid : WellFormed (.store .r0 .r1 (-8192)) := by decide
theorem test_witness_IllFormedInstructionsAreTruncated :
    ¬ WellFormed (.ecall 16384) ∧ ¬ WellFormed (.addi .r1 .r2 8192) ∧ ¬ WellFormed (.load .r1 .r2 (-8193)) ∧
    ¬ WellFormed (.store .r1 .r2 8192) ∧ ¬ WellFormed (.beq .r1 .r2 8192) ∧ ¬ WellFormed (.bne .r1 .r2 8192) ∧
    ¬ WellFormed (.blt .r1 .r2 8192) ∧ ¬ WellFormed (.bge .r1 .r2 8192) ∧ ¬ WellFormed (.jal 33554432) ∧
    ¬ WellFormed (.jump (-33554433)) := by decide
theorem test_witness_InvalidRegisterIsUnreachable : decode 0xFFFFFFFF = .err (.reservedOpcode 0x3F) := by decide
theorem test_witness_ReservedOpcodeIsTheFirstCheck :
    opcodeOf 0x0B = none ∧ decode 0x2FFFFFFF = .err (.reservedOpcode 0x0B) := by decide
theorem test_witness_ReservedFunctOnlyUnderOpcodeZero :
    decode 0x00000000 = .err (.reservedFunct 0) ∧ decode 0x00000008 = .err (.reservedFunct 8) := by decide
theorem test_witness_UnusedSlotsMustBeZero :
    (opcodeField 0x0448C005 = opcodeValue (.ri .addi) ∧ rs2Slot 0x0448C005 = 3) ∧
    (opcodeField 0x1FC00000 = opcodeValue (.ri .bge) ∧ rdSlot 0x1FC00000 = 15) ∧
    (opcodeField 0x28158007 = opcodeValue (.ri .ecall) ∧ rdSlot 0x28158007 = 0 ∧ rs1Slot 0x28158007 = 5) ∧
    (opcodeField 0x2800C000 = opcodeValue (.ri .ecall) ∧ rs1Slot 0x2800C000 = 0 ∧ rs2Slot 0x2800C000 = 3) ∧
    opcodeField 0x28000000 = opcodeValue (.ri .ecall) := by decide
theorem test_witness_ZeroSlotConvention :
    (opcodeOf (opcodeField (encode (.ecall 93))) = some (.ri .ecall) ∧ Slot.rs1 ∈ unusedSlots .ecall) ∧
    (opcodeOf (opcodeField 0x28158007) = some (.ri .ecall) ∧ slotOf .rs2 0x28158007 ≠ 0) ∧
    decode 0x10448003 = .err (.reservedField .rd 1) := by decide
theorem test_witness_DecodeOfEncodeIsIdentity : WellFormed (.bge .r15 .r15 (-8192)) ∧ WellFormed (.jump 33554431) := by decide
theorem test_witness_AcceptedWordsAreCanonical : decode 0x1004FFFF = .ok (.beq .r1 .r3 (-1)) := by decide
theorem test_witness_CodecIsABijectionOntoAcceptedWords :
    WellFormed (.ecall (-8192)) ∧ decode 0x28002000 = .ok (.ecall (-8192)) := by decide
theorem test_witness_ReverseMultiplexerUndoesForward :
    (WellFormed (.ecall 93) ∧ place (.ecall 93) = .slotted 0x0A 0 0 0 0x5D ∧ opcodeOf 0x0A = some (.ri .ecall)) ∧
    (WellFormed (.store .r15 .r7 (-8192)) ∧ place (.store .r15 .r7 (-8192)) = .slotted 0x03 15 7 0 0x2000 ∧
      opcodeOf 0x03 = some (.ri .store)) ∧
    (WellFormed (.beq .r1 .r15 8191) ∧ place (.beq .r1 .r15 8191) = .slotted 0x04 0 1 15 0x1FFF ∧
      opcodeOf 0x04 = some (.ri .beq)) := by decide
theorem test_witness_ErrorSignalsOfRejectedWords :
    decode 0x2C000000 = .err (.reservedOpcode 0x0B) ∧ errKind (.reservedOpcode 0x0B) = 0 ∧
    decode 0x0048E001 = .err (.reservedFunct 0x2001) ∧ errKind (.reservedFunct 0x2001) = 1 ∧
    decode 0x28158007 = .err (.reservedField .rs1 5) ∧ errKind (.reservedField .rs1 5) = 2 := by decide
theorem test_witness_StepRunsDecodedInstruction :
    (usedState [.word 0x04480005]).pending = .word 0x04480005 :: [] ∧
    decode 0x04480005 = .ok (.addi .r1 .r2 5) := by decide
theorem test_witness_FetchedWordRunsNext :
    decodeTableWord 32 0x04480005 = some (.addi .r1 .r2 5) ∧ decodeTableWord 32 0x0048C001 = some (.add .r1 .r2 .r3) := by decide
theorem test_witness_DecodeErrorIsAReturnedValue :
    (usedState [.word 0x0448C005]).pending = .word 0x0448C005 :: [] ∧
    decode 0x0448C005 = .err (.reservedField .rs2 3) := by decide
theorem test_witness_StepMakesOnePresentation :
    (usedState [.insn (.jal 1)]).pending = .insn (.jal 1) :: [] ∧ (usedState [.place (.jal 1)]).pending = .place (.jal 1) :: [] ∧
    (usedState [.unplace .ecall 1 2 3 4]).pending = .unplace .ecall 1 2 3 4 :: [] ∧ (usedState []).pending = [] := by decide
theorem test_witness_InstructionsChangeOnlyTheEncoderSide : ∃ t, exec (.ecall 16384) (usedState []) = .next t := ⟨_, rfl⟩
theorem test_witness_OutputsDependOnlyOnTheInput :
    ∃ t t', (usedState [.word 0x28158007]).pending = .word 0x28158007 :: [] ∧
      ({ State.reset with pending := [.word 0x28158007, .insn (.jal 1)] } : State).pending =
        .word 0x28158007 :: [.insn (.jal 1)] ∧
      step (usedState [.word 0x28158007]) = .next t ∧
      step { State.reset with pending := [.word 0x28158007, .insn (.jal 1)] } = .next t' :=
  ⟨_, _, rfl, rfl, rfl, rfl⟩
theorem test_witness_ErrorsLeaveNoTrace : decode 0x00000000 = .err (.reservedFunct 0) := by decide
theorem test_witness_StepKeepsInvariant :
    ∃ s t : State, CodecInv s ∧ s.pending ≠ [] ∧ step s = .next t := by
  refine ⟨usedState [.word 0x04480005], _, ⟨⟨?_, ?_, ?_, ?_⟩, ?_, ?_⟩, by decide, rfl⟩
  · rintro p ⟨⟩; decide
  · rintro p ⟨⟩
  · rintro p ⟨⟩; decide
  · rintro p ⟨⟩
  · intro r hr
    rw [show (usedState [.word 0x04480005]).results = [.ok (.jal 0)] from rfl, List.mem_singleton] at hr
    exact ⟨0x20000000, hr.trans (by decide)⟩
  · intro w hw
    rw [show (usedState [.word 0x04480005]).encoded = [0x20000000] from rfl, List.mem_singleton] at hw
    exact ⟨.jal 0, by decide, by rw [hw]; decide, by rw [hw]; decide⟩
theorem test_witness_NothingHappensUntilPresented : (usedState []).pending = [] := by decide
theorem test_witness_WordSequenceEndState :
    (usedState [.word 0x04480005, .word 0x0448C005, .insn (.jal 1)]).pending =
      ([0x04480005, 0x0448C005] : List Word).map .word ++ [.insn (.jal 1)] := by decide
theorem test_witness_InstructionSequenceRoundTrip :
    (∀ i ∈ ([.addi .r1 .r0 0, .jal (-1)] : List Instr), WellFormed i) ∧
    (usedState [.insn (.addi .r1 .r0 0), .insn (.jal (-1))]).pending =
      ([.addi .r1 .r0 0, .jal (-1)] : List Instr).map .insn := by decide

end Sys2Proof.Tests
end

/-! ## Encoding: jump offsets and the zero-slot convention (R69, R71) -/

namespace Sys2Proof.Machine

/-! ### The jump offset field (R69) -/

theorem truncJOff_eq_setWidth (o : JOff) : truncJOff o = o.setWidth 26 :=
  (BitVec.setWidth_eq_extractLsb' (by decide)).symm

/-- Truncation keeps the value of an offset up to the field's modulus. -/
theorem toInt_truncJOff (o : JOff) : (truncJOff o).toInt = o.toInt.bmod (2 ^ 26) := by
  rw [truncJOff_eq_setWidth, BitVec.toInt_setWidth, BitVec.toInt_eq_toNat_bmod,
    Int.bmod_bmod_of_dvd (by decide)]

theorem toInt_truncJOff_of_joffInRange {o : JOff} (h : joffInRange o = true) :
    (truncJOff o).toInt = o.toInt := by
  obtain ⟨hlo, hhi⟩ : -33554432 ≤ o.toInt ∧ o.toInt ≤ 33554431 := of_decide_eq_true h
  rw [toInt_truncJOff, Int.bmod_eq_of_le] <;> omega

/-- The shift method of R113 is sign extension of the word's offset field. -/
theorem sextJOff_eq_signExtend (w : Word) : sextJOff w = (offField w).signExtend 32 := by
  simp only [sextJOff, offField]
  ext i hi
  simp [BitVec.getElem_sshiftRight, BitVec.getElem_signExtend]
  grind

theorem offField_encode_jal (o : JOff) : offField (encode (.jal o)) = truncJOff o :=
  offField_pack_long ..

theorem offField_encode_jump (o : JOff) : offField (encode (.jump o)) = truncJOff o :=
  offField_pack_long ..

/-! ### What the decoder can answer, by the path the opcode selects (R109 to R112) -/

/-- Every way the decoder accepts a word. -/
theorem decode_ok_cases {w : Word} {i : Instr} (h : decode w = .ok i) :
    (∃ op, opcodeOf (opcodeField w) = some .rr ∧ functOf (lowField w) = some op ∧
      i = rrInstr op (registerOf (rdSlot w)) (registerOf (rs1Slot w)) (registerOf (rs2Slot w))) ∨
    (∃ p, opcodeOf (opcodeField w) = some (.ri p) ∧
      zeroSlotError p (rdSlot w) (rs1Slot w) (rs2Slot w) = none ∧
      i = unplace p (rdSlot w) (rs1Slot w) (rs2Slot w) (lowField w)) ∨
    (opcodeOf (opcodeField w) = some .jal ∧ i = .jal (sextJOff w)) ∨
    (opcodeOf (opcodeField w) = some .jump ∧ i = .jump (sextJOff w)) := by
  unfold decode at h
  split at h
  · cases h
  · next hop =>
    unfold decodeRr at h
    split at h
    · cases h
    · next op hf => cases h; exact .inl ⟨op, hop, hf, rfl⟩
  · next p hop =>
    rw [decodeRi, fmResult_eq] at h
    cases hz : zeroSlotError p (rdSlot w) (rs1Slot w) (rs2Slot w) with
    | none => rw [hz] at h; cases h; exact .inr (.inl ⟨p, hop, hz, rfl⟩)
    | some e => rw [hz] at h; cases h
  · next hop => cases h; exact .inr (.inr (.inl ⟨hop, rfl⟩))
  · next hop => cases h; exact .inr (.inr (.inr ⟨hop, rfl⟩))

/-- Every way the decoder rejects a word. -/
theorem decode_err_cases {w : Word} {e : DecodeError} (h : decode w = .err e) :
    (opcodeOf (opcodeField w) = none ∧ e = .reservedOpcode (opcodeField w)) ∨
    (opcodeOf (opcodeField w) = some .rr ∧ functOf (lowField w) = none ∧ e = .reservedFunct (lowField w)) ∨
    (∃ p, opcodeOf (opcodeField w) = some (.ri p) ∧
      zeroSlotError p (rdSlot w) (rs1Slot w) (rs2Slot w) = some e) := by
  unfold decode at h
  split at h
  · next hop => cases h; exact .inl ⟨hop, rfl⟩
  · next hop =>
    unfold decodeRr at h
    split at h
    · next hf => cases h; exact .inr (.inl ⟨hop, hf, rfl⟩)
    · cases h
  · next p hop =>
    rw [decodeRi, fmResult_eq] at h
    cases hz : zeroSlotError p (rdSlot w) (rs1Slot w) (rs2Slot w) with
    | none => rw [hz] at h; cases h
    | some e' => rw [hz] at h; cases h; exact .inr (.inr ⟨p, hop, hz⟩)
  · cases h
  · cases h

/-- A register-immediate word with a failing must-be-zero check is rejected with that check's error. -/
theorem decode_of_zeroSlotError {w : Word} {p : RiOpcode} {e : DecodeError}
    (hop : opcodeOf (opcodeField w) = some (.ri p))
    (hz : zeroSlotError p (rdSlot w) (rs1Slot w) (rs2Slot w) = some e) : decode w = .err e := by
  simp only [decode, hop, decodeRi, fmResult_eq, hz, Option.elim_some]

@[simp] theorem opcodeFor_rrInstr (op : RrOp) (rd rs1 rs2 : Reg) :
    Laws.OpcodeField.opcodeFor (rrInstr op rd rs1 rs2) = .rr := by cases op <;> rfl

@[simp] theorem opcodeFor_unplace (p : RiOpcode) (a b c : BitVec 4) (v : BitVec 14) :
    Laws.OpcodeField.opcodeFor (unplace p a b c v) = .ri p := by cases p <;> rfl

/-- An accepted word decodes to an Instruction that its own opcode selects. -/
theorem opcodeOf_of_decode_ok {w : Word} {i : Instr} (h : decode w = .ok i) :
    opcodeOf (opcodeField w) = some (Laws.OpcodeField.opcodeFor i) := by
  obtain ⟨op, hop, -, rfl⟩ | ⟨p, hop, -, rfl⟩ | ⟨hop, rfl⟩ | ⟨hop, rfl⟩ := decode_ok_cases h
  · rw [hop, opcodeFor_rrInstr]
  · rw [hop, opcodeFor_unplace]
  · exact hop
  · exact hop

/-- The offset a jump delivers is the extended field of the word. -/
theorem offset_of_decode_jump {w : Word} {o : JOff}
    (h : decode w = .ok (.jal o) ∨ decode w = .ok (.jump o)) : o = sextJOff w := by
  rcases h with h | h
  · have hop : opcodeOf (opcodeField w) = some .jal := opcodeOf_of_decode_ok h
    simpa [decode, hop] using h.symm
  · have hop : opcodeOf (opcodeField w) = some .jump := opcodeOf_of_decode_ok h
    simpa [decode, hop] using h.symm

/-- Settles O25: the field is the truncated offset, and both extension and truncation in range keep its signed value. -/
theorem jumpOffsetIsStoredUnscaled : Obligations.JumpOffsetIsStoredUnscaled := by
  refine ⟨fun o => ?_, fun o hwf => ?_, fun w o h => ?_⟩
  · rw [offField_encode_jal, offField_encode_jump, truncJOff_eq_setWidth]
    exact ⟨rfl, rfl⟩
  · rw [offField_encode_jal, offField_encode_jump]
    exact ⟨toInt_truncJOff_of_joffInRange hwf, toInt_truncJOff_of_joffInRange hwf⟩
  · obtain rfl := offset_of_decode_jump h
    rw [sextJOff_eq_signExtend]
    exact ⟨BitVec.toInt_signExtend_of_le (by decide), rfl⟩

/-! ### The zero-slot convention (R71) -/

/-- The must-be-zero checks of a word are those of its variant's unused slots, and the first to fail decides. -/
theorem zeroSlotError_eq_findSome? (p : RiOpcode) (w : Word) :
    zeroSlotError p (rdSlot w) (rs1Slot w) (rs2Slot w) =
      (unusedSlots p).findSome? fun x => requireZero x (slotOf x w) := by
  cases p
  case addi | load | store | beq | bne | blt | bge => simp [zeroSlotError, unusedSlots, slotOf]
  case ecall =>
    simp only [zeroSlotError, unusedSlots, slotOf, List.findSome?_cons, List.findSome?_nil]
    grind

/-- A failing check names an unused slot that is not zero, with its value. -/
theorem unusedSlot_of_zeroSlotError {p : RiOpcode} {w : Word} {e : DecodeError}
    (h : zeroSlotError p (rdSlot w) (rs1Slot w) (rs2Slot w) = some e) :
    ∃ x ∈ unusedSlots p, slotOf x w ≠ 0 ∧ e = .reservedField x (slotOf x w) := by
  rw [zeroSlotError_eq_findSome?] at h
  obtain ⟨x, hx, hfail⟩ := List.exists_of_findSome?_eq_some h
  exact ⟨x, hx, (requireZero_eq_some ..).mp hfail⟩

/-- The checks pass exactly when every unused slot is zero. -/
theorem zeroSlotError_eq_none_iff (p : RiOpcode) (w : Word) :
    zeroSlotError p (rdSlot w) (rs1Slot w) (rs2Slot w) = none ↔ ∀ x ∈ unusedSlots p, slotOf x w = 0 := by
  simp [zeroSlotError_eq_findSome?]

/-- The opcode field of an Instruction's word is its opcode's value, whatever the Instruction. -/
theorem opcodeField_encode : ∀ i : Instr, Laws.OpcodeField.Statement i
  | .add .. => Laws.OpcodeField.add ..
  | .sub .. => Laws.OpcodeField.sub ..
  | .and .. => Laws.OpcodeField.and ..
  | .or .. => Laws.OpcodeField.or ..
  | .xor .. => Laws.OpcodeField.xor ..
  | .shl .. => Laws.OpcodeField.shl ..
  | .shr .. => Laws.OpcodeField.shr ..
  | .addi .. => Laws.OpcodeField.addi ..
  | .load .. => Laws.OpcodeField.load ..
  | .store .. => Laws.OpcodeField.store ..
  | .beq .. => Laws.OpcodeField.beq ..
  | .bne .. => Laws.OpcodeField.bne ..
  | .blt .. => Laws.OpcodeField.blt ..
  | .bge .. => Laws.OpcodeField.bge ..
  | .ecall .. => Laws.OpcodeField.ecall ..
  | .jal .. => Laws.OpcodeField.jal ..
  | .jump .. => Laws.OpcodeField.jump ..

@[simp] theorem opcodeOf_opcodeField_encode (i : Instr) :
    opcodeOf (opcodeField (encode i)) = some (Laws.OpcodeField.opcodeFor i) := by
  rw [opcodeField_encode i, opcodeOf_opcodeValue]

/-- The encoder fills every slot a variant does not use with the zero register's index. -/
theorem slotOf_encode_of_unused {i : Instr} {p : RiOpcode} {x : Slot}
    (hp : Laws.OpcodeField.opcodeFor i = .ri p) (hx : x ∈ unusedSlots p) : slotOf x (encode i) = 0 := by
  cases i <;> cases hp
  case addi | load | store =>
    obtain rfl := List.mem_singleton.mp hx
    exact rs2Slot_pack_slotted ..
  case beq | bne | blt | bge =>
    obtain rfl := List.mem_singleton.mp hx
    exact rdSlot_pack_slotted ..
  case ecall =>
    cases x
    · exact rdSlot_pack_slotted ..
    · exact rs1Slot_pack_slotted ..
    · exact rs2Slot_pack_slotted ..

/-- A rejection for a slot comes from the register-immediate path alone. -/
theorem opcodeOf_of_decode_reservedField {w : Word} {x : Slot} {v : BitVec 4}
    (h : decode w = .err (.reservedField x v)) : ∃ p, opcodeOf (opcodeField w) = some (.ri p) := by
  obtain ⟨-, he⟩ | ⟨-, -, he⟩ | ⟨p, hop, -⟩ := decode_err_cases h
  · cases he
  · cases he
  · exact ⟨p, hop⟩

/-- Settles O32: the checks run over the unused slots, which the encoder leaves zero. -/
theorem zeroSlotConvention : Obligations.ZeroSlotConvention := by
  refine ⟨fun p i x hop hx => ?_, fun p w hop hne => ?_, fun w x v h => ?_,
    rfl, rfl, rfl, rfl, rfl, rfl, rfl, rfl⟩
  · rw [opcodeOf_opcodeField_encode] at hop
    exact slotOf_encode_of_unused (Option.some.inj hop) hx
  · have hfails : zeroSlotError p (rdSlot w) (rs1Slot w) (rs2Slot w) ≠ none := by
      simpa [zeroSlotError_eq_none_iff] using hne
    obtain ⟨e, he⟩ := Option.ne_none_iff_exists'.mp hfails
    obtain ⟨x, hx, hv, rfl⟩ := unusedSlot_of_zeroSlotError he
    exact ⟨x, hx, hv, decode_of_zeroSlotError hop he⟩
  · obtain ⟨p, hop⟩ := opcodeOf_of_decode_reservedField h
    simp [hop]

end Sys2Proof.Machine

/-! ## Block operations: register catalog, error classification, round trip and canonical words (R100, R109, R114, R115, R117, R118) -/

namespace Sys2Proof.Machine

/-! ### The immediate field (R68, R113) -/

theorem truncImm_eq_setWidth (v : Imm) : truncImm v = v.setWidth 14 :=
  (BitVec.setWidth_eq_extractLsb' (by decide)).symm

/-- The shift method of R113 is sign extension of the immediate field. -/
theorem sextImm_eq_signExtend (low : BitVec 14) : sextImm low = low.signExtend 16 := by
  simp only [sextImm]
  ext i hi
  simp [BitVec.getElem_sshiftRight, BitVec.getElem_signExtend]
  grind

theorem immInRange_sextImm (low : BitVec 14) : immInRange (sextImm low) = true := by
  have hlo := BitVec.le_toInt low
  have hhi := BitVec.toInt_lt (x := low)
  rw [sextImm_eq_signExtend, immInRange, decide_eq_true_eq, BitVec.toInt_signExtend_of_le (by decide)]
  omega

theorem joffInRange_sextJOff (w : Word) : joffInRange (sextJOff w) = true := by
  have hlo := BitVec.le_toInt (offField w)
  have hhi := BitVec.toInt_lt (x := offField w)
  rw [sextJOff_eq_signExtend, joffInRange, decide_eq_true_eq, BitVec.toInt_signExtend_of_le (by decide)]
  omega

theorem toInt_truncImm_of_immInRange {v : Imm} (h : immInRange v = true) :
    (truncImm v).toInt = v.toInt := by
  obtain ⟨hlo, hhi⟩ : -8192 ≤ v.toInt ∧ v.toInt ≤ 8191 := of_decide_eq_true h
  have hmod : (truncImm v).toInt = v.toInt.bmod (2 ^ 14) := by
    rw [truncImm_eq_setWidth, BitVec.toInt_setWidth, BitVec.toInt_eq_toNat_bmod,
      Int.bmod_bmod_of_dvd (by decide)]
  rw [hmod, Int.bmod_eq_of_le] <;> omega

theorem signExtend_truncImm_of_immInRange {v : Imm} (h : immInRange v = true) :
    (truncImm v).signExtend 16 = v := by
  apply BitVec.eq_of_toInt_eq
  rw [BitVec.toInt_signExtend_of_le (by decide), toInt_truncImm_of_immInRange h]

theorem signExtend_truncJOff_of_joffInRange {o : JOff} (h : joffInRange o = true) :
    (truncJOff o).signExtend 32 = o := by
  apply BitVec.eq_of_toInt_eq
  rw [BitVec.toInt_signExtend_of_le (by decide), toInt_truncJOff_of_joffInRange h]

/-! ### What the decoder reads back from a packed word (R117) -/

/-- The Instruction whose operand field is the one that fits into the word: the immediate or the offset truncated to its
field and extended again (R107). Well-formed Instructions are their own truncation. -/
def truncated : Instr → Instr
  | .addi rd rs1 v => .addi rd rs1 ((truncImm v).signExtend 16)
  | .load rd base v => .load rd base ((truncImm v).signExtend 16)
  | .store src base v => .store src base ((truncImm v).signExtend 16)
  | .beq rs1 rs2 v => .beq rs1 rs2 ((truncImm v).signExtend 16)
  | .bne rs1 rs2 v => .bne rs1 rs2 ((truncImm v).signExtend 16)
  | .blt rs1 rs2 v => .blt rs1 rs2 ((truncImm v).signExtend 16)
  | .bge rs1 rs2 v => .bge rs1 rs2 ((truncImm v).signExtend 16)
  | .ecall v => .ecall ((truncImm v).signExtend 16)
  | .jal o => .jal ((truncJOff o).signExtend 32)
  | .jump o => .jump ((truncJOff o).signExtend 32)
  | i => i

@[simp] theorem truncated_rrInstr (op : RrOp) (rd rs1 rs2 : Reg) :
    truncated (rrInstr op rd rs1 rs2) = rrInstr op rd rs1 rs2 := by cases op <;> rfl

theorem truncated_of_wellFormed {i : Instr} (h : WellFormed i) : truncated i = i := by
  cases i
  case add | sub | and | or | xor | shl | shr => rfl
  case addi | load | store | beq | bne | blt | bge | ecall =>
    rw [truncated, signExtend_truncImm_of_immInRange h]
  case jal | jump => rw [truncated, signExtend_truncJOff_of_joffInRange h]

/-- The Instructions with the register-register opcode are the variants of the seven operations. -/
theorem exists_rrInstr_of_opcodeFor : ∀ {i : Instr}, Laws.OpcodeField.opcodeFor i = .rr →
    ∃ op rd rs1 rs2, i = rrInstr op rd rs1 rs2
  | .add _ _ _, _ => ⟨.add, _, _, _, rfl⟩
  | .sub _ _ _, _ => ⟨.sub, _, _, _, rfl⟩
  | .and _ _ _, _ => ⟨.and, _, _, _, rfl⟩
  | .or _ _ _, _ => ⟨.or, _, _, _, rfl⟩
  | .xor _ _ _, _ => ⟨.xor, _, _, _, rfl⟩
  | .shl _ _ _, _ => ⟨.shl, _, _, _, rfl⟩
  | .shr _ _ _, _ => ⟨.shr, _, _, _, rfl⟩

/-- What the forward multiplexer places under a register-immediate opcode, the reverse one accepts and steers back,
the immediate truncated to its field (R116). -/
theorem fmResult_place {i : Instr} {p : RiOpcode} (h : Laws.OpcodeField.opcodeFor i = .ri p) :
    ∃ a b c v, place i = .slotted (opcodeValue (.ri p)) a b c v ∧ fmResult p a b c v = .ok (truncated i) := by
  cases i <;> cases h
  all_goals
    refine ⟨_, _, _, _, rfl, ?_⟩
    simp [fmResult_eq, zeroSlotError, unplace, truncated, requireZero, sextImm_eq_signExtend]

theorem decode_pack_rr (op : RrOp) (a b c : BitVec 4) :
    decode (pack (.slotted (opcodeValue .rr) a b c (functValue op))) =
      .ok (rrInstr op (registerOf a) (registerOf b) (registerOf c)) := by
  simp [decode, decodeRr]

theorem decode_pack_ri (p : RiOpcode) (a b c : BitVec 4) (v : BitVec 14) :
    decode (pack (.slotted (opcodeValue (.ri p)) a b c v)) = fmResult p a b c v := by
  simp [decode, decodeRi]

theorem decode_pack_jal (off : BitVec 26) :
    decode (pack (.long (opcodeValue .jal) off)) = .ok (.jal (off.signExtend 32)) := by
  simp [decode, sextJOff_eq_signExtend]

theorem decode_pack_jump (off : BitVec 26) :
    decode (pack (.long (opcodeValue .jump) off)) = .ok (.jump (off.signExtend 32)) := by
  simp [decode, sextJOff_eq_signExtend]

/-- The encoder's word decodes, for an ill-formed Instruction too, to what fits into the word. -/
theorem decode_encode (i : Instr) : decode (encode i) = .ok (truncated i) := by
  cases hop : Laws.OpcodeField.opcodeFor i with
  | rr =>
    obtain ⟨op, rd, rs1, rs2, rfl⟩ := exists_rrInstr_of_opcodeFor hop
    rw [encode, place_rrInstr, ← opcodeValue, decode_pack_rr]
    simp
  | ri p =>
    obtain ⟨a, b, c, v, hplace, hback⟩ := fmResult_place hop
    rw [encode, hplace, decode_pack_ri, hback]
  | jal => cases i <;> cases hop; exact decode_pack_jal _
  | jump => cases i <;> cases hop; exact decode_pack_jump _

/-- Settles O35: the encoder's word decodes to the truncated Instruction, and truncation changes no well-formed one. -/
theorem decodeOfEncodeIsIdentity : Obligations.DecodeOfEncodeIsIdentity := fun i hwf => by
  rw [decode_encode, truncated_of_wellFormed hwf]

/-! ### Accepted words are canonical (R118) -/

theorem wellFormed_rrInstr (op : RrOp) (rd rs1 rs2 : Reg) : WellFormed (rrInstr op rd rs1 rs2) := by
  cases op <;> rfl

theorem wellFormed_unplace (p : RiOpcode) (a b c : BitVec 4) (v : BitVec 14) :
    WellFormed (unplace p a b c v) := by
  cases p <;> exact immInRange_sextImm v

theorem encode_rrInstr (op : RrOp) (rd rs1 rs2 : Reg) :
    encode (rrInstr op rd rs1 rs2) =
      pack (.slotted (opcodeValue .rr) (indexOf rd) (indexOf rs1) (indexOf rs2) (functValue op)) :=
  congrArg pack (place_rrInstr op rd rs1 rs2)

/-- Raw fields that pass the must-be-zero checks are placed again as they were (R116). -/
theorem place_unplace {p : RiOpcode} {a b c : BitVec 4} (hz : zeroSlotError p a b c = none) (v : BitVec 14) :
    place (unplace p a b c v) = .slotted (opcodeValue (.ri p)) a b c v := by
  cases p
  case addi | load | store | beq | bne | blt | bge =>
    obtain rfl := (requireZero_eq_none ..).mp hz
    simp [unplace, place, opcodeValue]
  case ecall =>
    obtain ⟨rfl, rfl, rfl⟩ : a = 0 ∧ b = 0 ∧ c = 0 := by simpa [zeroSlotError] using hz
    simp [unplace, place, opcodeValue]

/-- An accepted word is the encoding of what it decodes to. -/
theorem encode_of_decode_ok {w : Word} {i : Instr} (h : decode w = .ok i) : encode i = w := by
  obtain ⟨op, hop, hf, rfl⟩ | ⟨p, hop, hz, rfl⟩ | ⟨hop, rfl⟩ | ⟨hop, rfl⟩ := decode_ok_cases h
  · rw [encode_rrInstr, opcodeValue_of_opcodeOf hop, functValue_of_functOf hf]
    simp [pack_slotted_fields]
  · rw [encode, place_unplace hz, opcodeValue_of_opcodeOf hop, pack_slotted_fields]
  · rw [encode, place, truncJOff_sextJOff, ← opcodeValue, opcodeValue_of_opcodeOf hop, pack_long_fields]
  · rw [encode, place, truncJOff_sextJOff, ← opcodeValue, opcodeValue_of_opcodeOf hop, pack_long_fields]

/-- The decoder delivers only well-formed Instructions. -/
theorem wellFormed_of_decode_ok {w : Word} {i : Instr} (h : decode w = .ok i) : WellFormed i := by
  obtain ⟨op, -, -, rfl⟩ | ⟨p, -, -, rfl⟩ | ⟨-, rfl⟩ | ⟨-, rfl⟩ := decode_ok_cases h
  · exact wellFormed_rrInstr ..
  · exact wellFormed_unplace ..
  · exact joffInRange_sextJOff w
  · exact joffInRange_sextJOff w

/-- Settles O36: each decoding path undoes the encoder on its format, and delivers operands in range. -/
theorem acceptedWordsAreCanonical : Obligations.AcceptedWordsAreCanonical :=
  fun _ _ h => ⟨encode_of_decode_ok h, wellFormed_of_decode_ok h⟩

/-! ### Errors and the words they classify (R109, R114, R115) -/

theorem opcodeOf_eq_none_iff (v : BitVec 6) : opcodeOf v = none ↔ 0x0B ≤ v.toNat := by
  revert v; decide

/-- Every error of the decoder, with the part of the word that raises it: the opcode, the function code, or an unused slot. -/
theorem decode_err_forms {w : Word} {e : DecodeError} (h : decode w = .err e) :
    (opcodeOf (opcodeField w) = none ∧ e = .reservedOpcode (opcodeField w)) ∨
    (opcodeField w = opcodeValue .rr ∧ e = .reservedFunct (lowField w)) ∨
    (∃ p x, opcodeOf (opcodeField w) = some (.ri p) ∧ slotOf x w ≠ 0 ∧ e = .reservedField x (slotOf x w)) := by
  obtain ⟨hop, he⟩ | ⟨hop, -, he⟩ | ⟨p, hop, hz⟩ := decode_err_cases h
  · exact .inl ⟨hop, he⟩
  · exact .inr (.inl ⟨(opcodeValue_of_opcodeOf hop).symm, he⟩)
  · obtain ⟨x, -, hv, he⟩ := unusedSlot_of_zeroSlotError hz
    exact .inr (.inr ⟨p, x, hop, hv, he⟩)

/-- R109: the opcode check alone decides a word with a reserved opcode, and no other check reports that error. -/
theorem decode_eq_reservedOpcode_iff (w : Word) (raw : BitVec 6) :
    decode w = .err (.reservedOpcode raw) ↔ raw = opcodeField w ∧ opcodeOf raw = none := by
  constructor
  · intro h
    obtain ⟨hop, ⟨⟩⟩ | ⟨-, ⟨⟩⟩ | ⟨p, x, -, -, ⟨⟩⟩ := decode_err_forms h
    exact ⟨rfl, hop⟩
  · rintro ⟨rfl, hop⟩
    simp only [decode, hop]

/-- Settles O29: the opcode check looks at the opcode field alone, and every later error is of another kind. -/
theorem reservedOpcodeIsTheFirstCheck : Obligations.ReservedOpcodeIsTheFirstCheck := by
  refine ⟨fun op off hop => ?_, fun w raw => ?_⟩
  · exact (decode_eq_reservedOpcode_iff (pack (.long op off)) op).mpr ⟨(opcodeField_pack_long op off).symm, hop⟩
  · rw [decode_eq_reservedOpcode_iff, ← opcodeOf_eq_none_iff, and_self]

/-- Settles O34: an accepted word is canonical, and each error says which part of the word raised it. -/
theorem everyWordIsClassified : Obligations.EveryWordIsClassified := by
  refine ⟨fun w => ?_, by decide, by decide⟩
  cases h : decode w with
  | ok i => exact ⟨wellFormed_of_decode_ok h, by rw [encode_of_decode_ok h]⟩
  | err e =>
    obtain ⟨hop, rfl⟩ | ⟨hop, rfl⟩ | ⟨p, x, hop, hv, rfl⟩ := decode_err_forms h
    · exact ⟨rfl, (opcodeOf_eq_none_iff _).mp hop⟩
    · exact ⟨hop, rfl⟩
    · exact ⟨hv, p, hop⟩

theorem decode_ne_invalidRegister (w : Word) (x : Slot) (v : BitVec 4) :
    decode w ≠ .err (.invalidRegister x v) := by
  intro h
  obtain ⟨-, ⟨⟩⟩ | ⟨-, ⟨⟩⟩ | ⟨p, y, -, -, ⟨⟩⟩ := decode_err_forms h

theorem errKind_eq_three_iff (e : DecodeError) : errKind e = 3 ↔ ∃ x v, e = .invalidRegister x v := by
  cases e <;> simp [errKind]

/-- Settles O33: no path raises the error, and no other error has its kind. -/
theorem invalidRegisterIsUnreachable : Obligations.InvalidRegisterIsUnreachable := by
  refine fun w x v => ⟨decode_ne_invalidRegister w x v, fun e h hkind => ?_⟩
  obtain ⟨y, u, rfl⟩ := (errKind_eq_three_iff e).mp hkind
  exact decode_ne_invalidRegister w y u h

/-! ### The register catalog (R100) -/

/-- Settles O1: the catalog's two inverse laws, and its sixteen indices in order. -/
theorem registerCatalogIsTotalBijection : Obligations.RegisterCatalogIsTotalBijection :=
  ⟨registerOf_indexOf, indexOf_registerOf, rfl⟩

end Sys2Proof.Machine

/-! ## The register-register family: the family rule and `Add` (R140, R141) -/

namespace Sys2Proof.Machine

/-! ### The word (R104, R140) -/

/-- The fields of a slotted word stand side by side, so shifting each to its place and joining them gives the word. -/
theorem pack_slotted_eq_fieldAt (op : BitVec 6) (a b c : BitVec 4) (low : BitVec 14) :
    pack (.slotted op a b c low) =
      fieldAt op 26 ||| fieldAt a 22 ||| fieldAt b 18 ||| fieldAt c 14 ||| fieldAt low 0 := by
  simp only [pack, fieldAt]
  ext i hi
  simp
  grind

/-- A register-register word as the shift-and-or expression of the instruction rules: opcode 0x00 adds no bit. -/
theorem encode_rrInstr_eq_rrWord (op : RrOp) (rd rs1 rs2 : Reg) :
    encode (rrInstr op rd rs1 rs2) = rrWord (functValue op) rd rs1 rs2 := by
  have hzero : fieldAt (opcodeValue .rr) 26 = 0 := rfl
  rw [encode_rrInstr, pack_slotted_eq_fieldAt, hzero]
  simp only [rrWord, BitVec.ofNat_eq_ofNat, BitVec.zero_or]

/-! ### The decoder on a word with opcode 0x00 (R111, R140) -/

theorem decode_of_opcodeField_eq_zero {w : Word} (h : opcodeField w = 0x00) : decode w = decodeRr w := by
  simp only [decode, h, show opcodeOf 0x00 = some .rr from rfl]

theorem decodeRr_of_lowField {w : Word} {op : RrOp} (h : lowField w = functValue op) :
    decodeRr w = .ok (rrInstr op (registerOf (rdSlot w)) (registerOf (rs1Slot w)) (registerOf (rs2Slot w))) := by
  simp only [decodeRr, h, functOf_functValue]

/-- The only check of the register-register path is that of the function code. -/
theorem decodeRr_eq_err_iff (w : Word) (e : DecodeError) :
    decodeRr w = .err e ↔ e = .reservedFunct (lowField w) ∧ functOf (lowField w) = none := by
  unfold decodeRr
  cases functOf (lowField w) with
  | none => simp [eq_comm]
  | some op => simp

theorem functOf_eq_none_iff (f : BitVec 14) : functOf f = none ↔ ¬ (0x0001 ≤ f.toNat ∧ f.toNat ≤ 0x0007) := by
  unfold functOf
  split
  case h_8 => grind
  all_goals simp [*]

/-- Decode line of R140. -/
theorem decode_rr {w : Word} {op : RrOp} (hop : opcodeField w = 0x00) (hf : lowField w = functValue op) :
    decode w = .ok (rrInstr op (registerOf (rdSlot w)) (registerOf (rs1Slot w)) (registerOf (rs2Slot w))) :=
  (decode_of_opcodeField_eq_zero hop).trans (decodeRr_of_lowField hf)

theorem decode_encode_rrInstr (op : RrOp) (rd rs1 rs2 : Reg) :
    decode (encode (rrInstr op rd rs1 rs2)) = .ok (rrInstr op rd rs1 rs2) := by
  rw [decode_encode, truncated_rrInstr]

/-- Settles O5: the packed word field by field, the path that opcode 0x00 selects, and its one check. -/
theorem registerRegisterFamilyRule : Obligations.RegisterRegisterFamilyRule := by
  refine ⟨encode_rrInstr, fun op w => decode_rr, fun w e hop => ?_, decode_encode_rrInstr⟩
  rw [decode_of_opcodeField_eq_zero hop, decodeRr_eq_err_iff, functOf_eq_none_iff]

/-! ### Match and mask (R141) -/

/-- A mask made of fields acts on each field of the word alone. -/
theorem pack_slotted_and (op op' : BitVec 6) (a a' b b' c c' : BitVec 4) (low low' : BitVec 14) :
    pack (.slotted op a b c low) &&& pack (.slotted op' a' b' c' low') =
      pack (.slotted (op &&& op') (a &&& a') (b &&& b') (c &&& c') (low &&& low')) := by
  simp only [pack, ← BitVec.and_append]

/-- The mask of the family keeps the opcode and the function code and clears the three register slots. -/
theorem and_rrMask (w : Word) :
    w &&& 0xFC003FFF = pack (.slotted (opcodeField w) 0 0 0 (lowField w)) := by
  have hmask : (0xFC003FFF : Word) = pack (.slotted (BitVec.allOnes 6) 0 0 0 (BitVec.allOnes 14)) := by decide
  calc w &&& 0xFC003FFF
      = pack (.slotted (opcodeField w) (rdSlot w) (rs1Slot w) (rs2Slot w) (lowField w)) &&&
          pack (.slotted (BitVec.allOnes 6) 0 0 0 (BitVec.allOnes 14)) := by rw [pack_slotted_fields, hmask]
    _ = pack (.slotted (opcodeField w) 0 0 0 (lowField w)) := by
          simp only [pack_slotted_and, BitVec.and_allOnes, BitVec.ofNat_eq_ofNat, BitVec.and_zero]

theorem and_rrMask_eq_iff (w : Word) (f : BitVec 14) :
    w &&& 0xFC003FFF = pack (.slotted 0x00 0 0 0 f) ↔ opcodeField w = 0x00 ∧ lowField w = f := by
  rw [and_rrMask, eq_pack_slotted_iff]
  simp

/-- The words of one variant are those with its opcode and its function code, whatever their register slots hold. -/
theorem exists_decode_eq_rrInstr_iff (w : Word) (op : RrOp) :
    (∃ rd rs1 rs2, decode w = .ok (rrInstr op rd rs1 rs2)) ↔
      opcodeField w = 0x00 ∧ lowField w = functValue op := by
  constructor
  · rintro ⟨rd, rs1, rs2, h⟩
    rw [← encode_of_decode_ok h, encode_rrInstr]
    exact ⟨opcodeField_pack_slotted .., lowField_pack_slotted ..⟩
  · rintro ⟨hop, hf⟩
    exact ⟨_, _, _, decode_rr hop hf⟩

/-- Match and mask of the family: the match value of a variant is its function code. -/
theorem and_rrMask_eq_functValue_iff (w : Word) (op : RrOp) :
    w &&& 0xFC003FFF = pack (.slotted 0x00 0 0 0 (functValue op)) ↔
      ∃ rd rs1 rs2, decode w = .ok (rrInstr op rd rs1 rs2) := by
  rw [and_rrMask_eq_iff, exists_decode_eq_rrInstr_iff]

/-- Settles O6: the family's encode line, decode line and mask at the function code of `Add`, then its five words. -/
theorem addEncodesAndDecodes : Obligations.AddEncodesAndDecodes :=
  ⟨encode_rrInstr_eq_rrWord .add, fun _ => decode_rr (op := .add), fun w => and_rrMask_eq_functValue_iff w .add,
    by decide, by decide, by decide, by decide, by decide, decode_encode_rrInstr .add .r1 .r2 .r3⟩

end Sys2Proof.Machine

/-! ## The jump family: the J word and `Jal` (R190, R191) -/

namespace Sys2Proof.Machine

/-! ### The word (R63, R104) -/

/-- The two fields of a J word stand side by side, so shifting each to its place and joining them gives the word. -/
theorem pack_long_eq_fieldAt (op : BitVec 6) (off : BitVec 26) :
    pack (.long op off) = fieldAt op 26 ||| fieldAt off 0 := by
  simp only [pack, fieldAt]
  ext i hi
  simp
  grind

/-- Truncating an offset to its field is masking off the bits above position 25 (R69). -/
theorem fieldAt_truncJOff (o : JOff) : fieldAt (truncJOff o) 0 = o &&& 0x03FFFFFF := by
  have hmask : o.toNat &&& 0x03FFFFFF = o.toNat % 2 ^ 26 := Nat.and_two_pow_sub_one_eq_mod o.toNat 26
  have hfits : o.toNat % 0x04000000 < 2 ^ 32 := by omega
  apply BitVec.eq_of_toNat_eq
  simpa [fieldAt, truncJOff_eq_setWidth, hmask] using hfits

/-- Encode line of R191, for an offset out of range too. -/
theorem encode_jal_eq_or (o : JOff) :
    encode (.jal o) = ((0x08 : Word) <<< 26) ||| (o &&& 0x03FFFFFF) := by
  have hop : fieldAt (0x08 : BitVec 6) 26 = (0x08 : Word) <<< 26 := rfl
  rw [encode, place, pack_long_eq_fieldAt, fieldAt_truncJOff, hop]

/-! ### The decoder on a word with opcode 0x08 (R113, R191) -/

/-- Decode line of R191. -/
theorem decode_jal {w : Word} (hop : opcodeField w = 0x08) :
    decode w = .ok (.jal ((offField w).signExtend 32)) := by
  have hw : w = pack (.long 0x08 (offField w)) := (eq_pack_long_iff _ _ w).mpr ⟨hop, rfl⟩
  exact (congrArg decode hw).trans (decode_pack_jal _)

/-- The words of `Jal` are those with its opcode: every offset pattern is valid (R190). -/
theorem exists_decode_eq_jal_iff (w : Word) :
    (∃ offset, decode w = .ok (.jal offset)) ↔ opcodeField w = 0x08 := by
  constructor
  · rintro ⟨offset, h⟩
    exact (opcodeValue_of_opcodeOf (opcodeOf_of_decode_ok h)).symm
  · exact fun hop => ⟨_, decode_jal hop⟩

/-! ### Match and mask (R191) -/

/-- A mask made of the J format's fields acts on each field of the word alone. -/
theorem pack_long_and (op op' : BitVec 6) (off off' : BitVec 26) :
    pack (.long op off) &&& pack (.long op' off') = pack (.long (op &&& op') (off &&& off')) := by
  simp only [pack, ← BitVec.and_append]

/-- The mask of the family keeps the opcode and clears the offset. -/
theorem and_jumpMask (w : Word) : w &&& 0xFC000000 = pack (.long (opcodeField w) 0) := by
  have hmask : (0xFC000000 : Word) = pack (.long (BitVec.allOnes 6) 0) := by decide
  calc w &&& 0xFC000000
      = pack (.long (opcodeField w) (offField w)) &&& pack (.long (BitVec.allOnes 6) 0) := by
          rw [pack_long_fields, hmask]
    _ = pack (.long (opcodeField w) 0) := by
          simp only [pack_long_and, BitVec.and_allOnes, BitVec.ofNat_eq_ofNat, BitVec.and_zero]

theorem and_jumpMask_eq_iff (w : Word) (op : BitVec 6) :
    w &&& 0xFC000000 = pack (.long op 0) ↔ opcodeField w = op := by
  rw [and_jumpMask, eq_pack_long_iff]
  simp

/-- Match and mask of `Jal`: the match value is its opcode over a zero offset. -/
theorem and_jumpMask_eq_jal_iff (w : Word) :
    w &&& 0xFC000000 = 0x20000000 ↔ ∃ offset, decode w = .ok (.jal offset) := by
  rw [exists_decode_eq_jal_iff]
  exact and_jumpMask_eq_iff w 0x08

/-- Settles O21: the J word with its truncated offset, the path that opcode 0x08 selects, the mask of the opcode field,
then the rule's corner words. -/
theorem jalEncodesAndDecodes : Obligations.JalEncodesAndDecodes :=
  ⟨encode_jal_eq_or, fun _ => decode_jal, and_jumpMask_eq_jal_iff,
    by decide, by decide, by decide, by decide, by decide, by decide, by decide⟩

end Sys2Proof.Machine

/-! ## Exceptions: the reserved function code (R202) -/

namespace Sys2Proof.Machine

/-- R202: the error comes from the register-register path alone, and there from the function code alone. -/
theorem decode_eq_reservedFunct_iff (w : Word) (raw : BitVec 14) :
    decode w = .err (.reservedFunct raw) ↔ opcodeField w = 0x00 ∧ raw = lowField w ∧ functOf raw = none := by
  constructor
  · intro h
    obtain ⟨-, ⟨⟩⟩ | ⟨hop, hf, ⟨⟩⟩ | ⟨p, hop, hz⟩ := decode_err_cases h
    · exact ⟨(opcodeValue_of_opcodeOf hop).symm, rfl, hf⟩
    · obtain ⟨x, -, -, ⟨⟩⟩ := unusedSlot_of_zeroSlotError hz
  · rintro ⟨hop, rfl, hf⟩
    rw [decode_of_opcodeField_eq_zero hop, decodeRr_eq_err_iff]
    exact ⟨rfl, hf⟩

/-- Settles O30: the function codes without an operation are 0 and those from 8 on. -/
theorem reservedFunctOnlyUnderOpcodeZero : Obligations.ReservedFunctOnlyUnderOpcodeZero := by
  intro w raw
  have hcodes : functOf raw = none ↔ raw.toNat = 0 ∨ 8 ≤ raw.toNat := by
    rw [functOf_eq_none_iff]
    omega
  rw [decode_eq_reservedFunct_iff, hcodes]

end Sys2Proof.Machine

/-! ## The encoder: every instruction rule is the assembled encoder (R106, R107, R123) -/

namespace Sys2Proof.Machine

/-! ### The words of the instruction rules (R104, R123) -/

@[simp] theorem fieldAt_zero (n at_ : Nat) : fieldAt 0#n at_ = 0#32 := by simp [fieldAt]

theorem riTwoWord_eq_pack (op : BitVec 6) (first second : Reg) (imm : Imm) :
    riTwoWord op first second imm = pack (.slotted op (indexOf first) (indexOf second) 0 (truncImm imm)) := by
  simp [pack_slotted_eq_fieldAt, riTwoWord]

theorem branchWord_eq_pack (op : BitVec 6) (rs1 rs2 : Reg) (offset : Imm) :
    branchWord op rs1 rs2 offset = pack (.slotted op 0 (indexOf rs1) (indexOf rs2) (truncImm offset)) := by
  simp [pack_slotted_eq_fieldAt, branchWord]

theorem immOnlyWord_eq_pack (op : BitVec 6) (imm : Imm) :
    immOnlyWord op imm = pack (.slotted op 0 0 0 (truncImm imm)) := by
  simp [pack_slotted_eq_fieldAt, immOnlyWord]

theorem jumpWord_eq_pack (op : BitVec 6) (offset : JOff) :
    jumpWord op offset = pack (.long op (truncJOff offset)) :=
  (pack_long_eq_fieldAt ..).symm

/-- The seven register-register rules differ in the function code alone. -/
theorem exec_rrInstr (op : RrOp) (rd rs1 rs2 : Reg) (s : State) :
    exec (rrInstr op rd rs1 rs2) s =
      driveEncoder (rrInstr op rd rs1 rs2) (rrWord (functValue op) rd rs1 rs2) s := by
  cases op <;> rfl

/-- R123: the word each rule hands to the encoder is the assembled encoder's. -/
theorem exec_eq_driveEncoder_encode (i : Instr) (s : State) : exec i s = driveEncoder i (encode i) s := by
  cases hop : Laws.OpcodeField.opcodeFor i with
  | rr =>
    obtain ⟨op, rd, rs1, rs2, rfl⟩ := exists_rrInstr_of_opcodeFor hop
    rw [exec_rrInstr, encode_rrInstr_eq_rrWord]
  | ri p =>
    cases i <;> cases hop
    case addi.refl | load.refl | store.refl => exact congrArg (driveEncoder _ · s) (riTwoWord_eq_pack ..)
    case beq.refl | bne.refl | blt.refl | bge.refl => exact congrArg (driveEncoder _ · s) (branchWord_eq_pack ..)
    case ecall.refl => exact congrArg (driveEncoder _ · s) (immOnlyWord_eq_pack ..)
  | jal | jump => cases i <;> cases hop; exact congrArg (driveEncoder _ · s) (jumpWord_eq_pack ..)

/-- Every Instruction completes in every state as the fields the forward multiplexer places. -/
theorem exec_eq_encodedAs (i : Instr) (s : State) : exec i s = .next (encodedAs i (place i) s) :=
  exec_eq_driveEncoder_encode i s

/-- Settles O27: the words of the instruction rules are those of `place` and `pack`. -/
theorem instructionRulesAgreeWithEncoder : Obligations.InstructionRulesAgreeWithEncoder :=
  exec_eq_encodedAs

/-- Settles O22: the completion of every Instruction, at `Add` and `Jal`. -/
theorem addAndJalCompleteInTheEncoder : Obligations.AddAndJalCompleteInTheEncoder :=
  ⟨fun rd rs1 rs2 => exec_eq_encodedAs (.add rd rs1 rs2), fun offset => exec_eq_encodedAs (.jal offset)⟩

/-- Settles O26: the word is the assembled encoder's, which the decoder accepts. -/
theorem encoderIsTotalAndItsWordsAreValid : Obligations.EncoderIsTotalAndItsWordsAreValid :=
  fun i _ => ⟨encode i, ⟨truncated i, decode_encode i⟩, exec_eq_encodedAs i⟩

/-! ### Ill-formed Instructions (R107) -/

theorem wellFormed_truncated (i : Instr) : WellFormed (truncated i) :=
  wellFormed_of_decode_ok (decode_encode i)

theorem encode_truncated (i : Instr) : encode (truncated i) = encode i :=
  encode_of_decode_ok (decode_encode i)

/-- Settles O28: the other Instruction is the truncated one, which being well-formed is not the given one. -/
theorem illFormedInstructionsAreTruncated : Obligations.IllFormedInstructionsAreTruncated := by
  intro i hill
  have hne : truncated i ≠ i := fun h => hill (h ▸ wellFormed_truncated i)
  refine ⟨truncated i, hne, wellFormed_truncated i, (encode_truncated i).symm, decode_encode i, ?_⟩
  cases i
  case add | sub | and | or | xor | shl | shr => exact hill rfl
  case addi | load | store | beq | bne | blt | bge | ecall | jal | jump => rfl

end Sys2Proof.Machine

/-! ## The machine: one step, its frame and its invariant (R20, R106, R118, R209, R230) -/

namespace Sys2Proof.Machine

/-! ### One step as a total function of the presentation -/

/-- The state after the word `w` is presented to the decoder and, when accepted, its Instruction to the encoder (D17). -/
def afterWord (w : Word) (s : State) : State :=
  match decode w with
  | .ok i => encodedAs i (place i) (acceptWord w i s)
  | .err e => raiseError w e s

/-- The state after one presentation, taken from a state that no longer holds it among those to come. -/
def afterPresentation (p : Presentation) (s : State) : State :=
  match p with
  | .word w => afterWord w s
  | .insn i => encodedAs i (place i) s
  | .place i => presentForward i s
  | .unplace op a b c v => presentReverse op a b c v s

theorem afterWord_of_ok {w : Word} {i : Instr} (h : decode w = .ok i) (s : State) :
    afterWord w s = encodedAs i (place i) (acceptWord w i s) := by simp only [afterWord, h]

theorem afterWord_of_err {w : Word} {e : DecodeError} (h : decode w = .err e) (s : State) :
    afterWord w s = raiseError w e s := by simp only [afterWord, h]

theorem step_of_idle {s : State} (h : s.pending = []) : step s = .next s := by simp only [step, h]

/-- A step is its oldest presentation, and never stops. -/
theorem step_of_pending {s : State} {p : Presentation} {rest : List Presentation} (h : s.pending = p :: rest) :
    step s = .next (afterPresentation p (withPending rest s)) := by
  cases p with
  | word w =>
    simp only [step, h, afterPresentation, afterWord]
    cases decode w with
    | ok i => exact exec_eq_encodedAs i _
    | err e => rfl
  | insn i => simp only [step, h, exec_eq_encodedAs, afterPresentation]
  | place i => simp only [step, h, afterPresentation]
  | unplace op a b c v => simp only [step, h, afterPresentation]

/-! ### What a presented word does to each field -/

@[simp] theorem afterWord_dec (w : Word) (s : State) :
    (afterWord w s).dec = some { word := w, result := decode w } := by
  cases h : decode w <;> simp [afterWord, h, acceptWord, raiseError]

@[simp] theorem afterWord_results (w : Word) (s : State) :
    (afterWord w s).results = s.results ++ [decode w] := by
  cases h : decode w <;> simp [afterWord, h, acceptWord, raiseError]

@[simp] theorem afterWord_pending (w : Word) (s : State) : (afterWord w s).pending = s.pending := by
  cases h : decode w <;> simp [afterWord, h, acceptWord, raiseError]

@[simp] theorem afterWord_fmReverse (w : Word) (s : State) :
    (afterWord w s).fmReverse = (driveReverse w s).fmReverse := by
  cases h : decode w <;> simp [afterWord, h, acceptWord, raiseError]

theorem accepts_iff (w : Word) : accepts w = true ↔ ∃ i, decode w = .ok i := by
  unfold accepts
  cases decode w <;> simp

/-- An accepted word is recorded again as it is: it is canonical (R118). -/
@[simp] theorem afterWord_encoded (w : Word) (s : State) :
    (afterWord w s).encoded = s.encoded ++ [w].filter accepts := by
  cases h : decode w with
  | ok i =>
    have hw : pack (place i) = w := encode_of_decode_ok h
    simp [afterWord, h, acceptWord, accepts, hw]
  | err e => simp [afterWord, h, raiseError, accepts]

@[simp] theorem afterPresentation_pending (p : Presentation) (s : State) :
    (afterPresentation p s).pending = s.pending := by
  cases p with
  | word w => exact afterWord_pending w s
  | insn i | place i | unplace op a b c v => rfl

/-! ### The reverse multiplexer behind the decoder (R112, R116) -/

theorem decode_of_opcodeOf_ri {w : Word} {p : RiOpcode} (h : opcodeOf (opcodeField w) = some (.ri p)) :
    decode w = fmResult p (rdSlot w) (rs1Slot w) (rs2Slot w) (lowField w) := by
  simp only [decode, h, decodeRi]

/-- For a register-immediate word the reverse multiplexer holds its fields and the decoder's answer. -/
theorem driveReverse_fmReverse_of_ri {w : Word} {p : RiOpcode} (h : opcodeOf (opcodeField w) = some (.ri p))
    (s : State) :
    (driveReverse w s).fmReverse =
      some { op := p, a := rdSlot w, b := rs1Slot w, c := rs2Slot w, v := lowField w, result := decode w } := by
  simp only [driveReverse, h, presentReverse_fmReverse, decode_of_opcodeOf_ri h]

theorem driveReverse_of_not_ri {w : Word} (h : ∀ p, opcodeOf (opcodeField w) ≠ some (.ri p)) (s : State) :
    driveReverse w s = s := by
  obtain ⟨p, hop, -⟩ | ⟨-, heq⟩ := driveReverse_eq w s
  · exact absurd hop (h p)
  · exact heq

/-! ### Noninterference (R20, R31, R120, R209) -/

/-- Settles O49: both next states are the same presentation's, which writes the ports it drives from its input alone. -/
theorem outputsDependOnlyOnTheInput : Obligations.OutputsDependOnlyOnTheInput := by
  intro s s' t t' p rest rest' hp hp' ht ht'
  obtain rfl : afterPresentation p (withPending rest s) = t := by simpa [step_of_pending hp] using ht
  obtain rfl : afterPresentation p (withPending rest' s') = t' := by simpa [step_of_pending hp'] using ht'
  cases p with
  | word w =>
    refine ⟨?_, fun hacc => ?_, fun q hq => ?_⟩
    · simp [afterPresentation]
    · obtain ⟨i, hi⟩ := (accepts_iff w).mp hacc
      simp [afterPresentation, afterWord_of_ok hi]
    · simp [afterPresentation, driveReverse_fmReverse_of_ri hq]
  | insn i => exact ⟨rfl, rfl⟩
  | place i => rfl
  | unplace op a b c v => rfl

/-! ### The invariant (R106, R118, R230) -/

theorem codecInv_withPending {s : State} (rest : List Presentation) (h : CodecInv s) :
    CodecInv (withPending rest s) := h

theorem codecInv_presentForward {s : State} (i : Instr) (h : CodecInv s) : CodecInv (presentForward i s) := by
  obtain ⟨⟨-, hrev, henc, hdec⟩, hrecords⟩ := h
  refine ⟨⟨?_, hrev, henc, hdec⟩, hrecords⟩
  rintro p ⟨⟩
  rfl

theorem codecInv_presentReverse {s : State} (op : RiOpcode) (a b c : BitVec 4) (v : BitVec 14) (h : CodecInv s) :
    CodecInv (presentReverse op a b c v s) := by
  obtain ⟨⟨hfwd, -, henc, hdec⟩, hrecords⟩ := h
  refine ⟨⟨hfwd, ?_, henc, hdec⟩, hrecords⟩
  rintro p ⟨⟩
  rfl

theorem codecInv_driveReverse {s : State} (w : Word) (h : CodecInv s) : CodecInv (driveReverse w s) := by
  obtain ⟨p, -, heq⟩ | ⟨-, heq⟩ := driveReverse_eq w s
  · rw [heq]; exact codecInv_presentReverse p _ _ _ _ h
  · rw [heq]; exact h

/-- Delivering the decoder's own answer keeps the ports consistent and the record valid. -/
theorem codecInv_deliverResult {s : State} (w : Word) (h : CodecInv s) :
    CodecInv (deliverResult w (decode w) s) := by
  obtain ⟨⟨hfwd, hrev, henc, -⟩, hresults, hencoded⟩ := h
  refine ⟨⟨hfwd, hrev, henc, ?_⟩, fun r hr => ?_, hencoded⟩
  · rintro p ⟨⟩
    rfl
  · rw [deliverResult_results, List.mem_append, List.mem_singleton] at hr
    exact hr.elim (hresults r) fun hr => ⟨w, hr⟩

/-- The word of any Instruction is the canonical one of its truncation, so recording it keeps the record valid. -/
theorem codecInv_encodedAs {s : State} (i : Instr) (h : CodecInv s) : CodecInv (encodedAs i (place i) s) := by
  obtain ⟨⟨-, hrev, -, hdec⟩, hresults, hencoded⟩ := h
  refine ⟨⟨?_, hrev, ?_, hdec⟩, hresults, fun w hw => ?_⟩
  · rintro p ⟨⟩
    rfl
  · rintro p ⟨⟩
    rfl
  · rw [encodedAs_encoded, List.mem_append, List.mem_singleton] at hw
    refine hw.elim (hencoded w) fun hw => ?_
    obtain rfl : w = encode i := hw
    exact ⟨truncated i, wellFormed_truncated i, decode_encode i, encode_truncated i⟩

theorem codecInv_afterWord {s : State} (w : Word) (h : CodecInv s) : CodecInv (afterWord w s) := by
  have hdelivered := codecInv_deliverResult w (codecInv_driveReverse w h)
  cases hd : decode w with
  | ok i =>
    rw [afterWord_of_ok hd, acceptWord_eq, ← hd]
    exact codecInv_encodedAs i hdelivered
  | err e =>
    rw [afterWord_of_err hd, raiseError_eq, ← hd]
    exact hdelivered

theorem codecInv_afterPresentation {s : State} (p : Presentation) (h : CodecInv s) :
    CodecInv (afterPresentation p s) := by
  cases p with
  | word w => exact codecInv_afterWord w h
  | insn i => exact codecInv_encodedAs i h
  | place i => exact codecInv_presentForward i h
  | unplace op a b c v => exact codecInv_presentReverse op a b c v h

/-- Settles O51: each kind of presentation keeps the invariant, and taking one from the list does. -/
theorem stepKeepsInvariant : Obligations.StepKeepsInvariant := by
  intro s t hinv hstep
  cases hp : s.pending with
  | nil =>
    obtain rfl : s = t := by simpa [step_of_idle hp] using hstep
    exact hinv
  | cons p rest =>
    obtain rfl : afterPresentation p (withPending rest s) = t := by simpa [step_of_pending hp] using hstep
    exact codecInv_afterPresentation p (codecInv_withPending rest hinv)

/-- Settles O52: after reset no port holds anything and no record has an entry. -/
theorem resetMeetsInvariant : Obligations.ResetMeetsInvariant := by
  simp [Obligations.ResetMeetsInvariant, CodecInv, PortsConsistent, RecordsValid, State.reset]

/-! ### Sequences of presentations (D17) -/

/-- What a presentation adds to the caller's record of decoder results. -/
def resultsOf : Presentation → List Result
  | .word w => [decode w]
  | _ => []

/-- What a presentation adds to the caller's record of encoder words: an Instruction its word, an accepted word itself. -/
def wordsOf : Presentation → List Word
  | .word w => [w].filter accepts
  | .insn i => [encode i]
  | _ => []

theorem afterPresentation_results (p : Presentation) (s : State) :
    (afterPresentation p s).results = s.results ++ resultsOf p := by
  cases p with
  | word w => exact afterWord_results w s
  | insn i | place i | unplace op a b c v => exact (List.append_nil _).symm

theorem afterPresentation_encoded (p : Presentation) (s : State) :
    (afterPresentation p s).encoded = s.encoded ++ wordsOf p := by
  cases p with
  | word w => exact afterWord_encoded w s
  | insn i => rfl
  | place i | unplace op a b c v => exact (List.append_nil _).symm

/-- The end state of any sequence of presentations: the records grow by what each presentation adds, in order. -/
theorem run_presentations (ps rest : List Presentation) (s : State) (hp : s.pending = ps ++ rest) :
    ∃ t, run ps.length s = .next t ∧ t.pending = rest ∧
      t.results = s.results ++ ps.flatMap resultsOf ∧ t.encoded = s.encoded ++ ps.flatMap wordsOf := by
  induction ps generalizing s with
  | nil => exact ⟨s, rfl, hp, (List.append_nil _).symm, (List.append_nil _).symm⟩
  | cons p ps ih =>
    obtain ⟨t, hrun, hpending, hresults, hencoded⟩ :=
      ih (afterPresentation p (withPending (ps ++ rest) s)) (afterPresentation_pending ..)
    refine ⟨t, ?_, hpending, ?_, ?_⟩
    · exact (run_succ ps.length (step_of_pending hp)).trans hrun
    · rw [hresults, afterPresentation_results, List.flatMap_cons, List.append_assoc, withPending_results]
    · rw [hencoded, afterPresentation_encoded, List.flatMap_cons, List.append_assoc, withPending_encoded]

theorem flatMap_resultsOf_words (ws : List Word) :
    (ws.map Presentation.word).flatMap resultsOf = ws.map decode := by
  rw [List.flatMap_map, List.map_eq_flatMap]
  rfl

theorem flatMap_wordsOf_words (ws : List Word) :
    (ws.map Presentation.word).flatMap wordsOf = ws.filter accepts := by
  induction ws with
  | nil => rfl
  | cons w ws ih =>
    rw [List.map_cons, List.flatMap_cons, ih, wordsOf, ← List.filter_append, List.singleton_append]

theorem flatMap_wordsOf_insns (is : List Instr) :
    (is.map Presentation.insn).flatMap wordsOf = is.map encode := by
  rw [List.flatMap_map, List.map_eq_flatMap]
  rfl

theorem flatMap_resultsOf_insns (is : List Instr) : (is.map Presentation.insn).flatMap resultsOf = [] := by
  simp [resultsOf]

/-- Settles O54: the end state of a sequence of presentations, when each is a word. -/
theorem wordSequenceEndState : Obligations.WordSequenceEndState := by
  intro ws s rest hp
  obtain ⟨t, hrun, hpending, hresults, hencoded⟩ := run_presentations (ws.map .word) rest s hp
  rw [List.length_map] at hrun
  rw [flatMap_resultsOf_words] at hresults
  rw [flatMap_wordsOf_words] at hencoded
  exact ⟨t, hrun, hpending, hresults, hencoded⟩

theorem accepts_encode (i : Instr) : accepts (encode i) = true :=
  (accepts_iff _).mpr ⟨_, decode_encode i⟩

/-- The words of well-formed Instructions decode to them (R117), one after the other. -/
theorem map_decode_map_encode {is : List Instr} (hwf : ∀ i ∈ is, WellFormed i) :
    (is.map encode).map decode = is.map .ok := by
  rw [List.map_map]
  exact List.map_congr_left fun i hi => decodeOfEncodeIsIdentity i (hwf i hi)

theorem filter_accepts_map_encode (is : List Instr) : (is.map encode).filter accepts = is.map encode :=
  List.filter_eq_self.mpr (List.forall_mem_map.mpr fun i _ => accepts_encode i)

/-- Settles O55: the first run records the Instructions' words, and the second is the run of a sequence of words, all
of them accepted. -/
theorem instructionSequenceRoundTrip : Obligations.InstructionSequenceRoundTrip := by
  intro is s hwf hp
  obtain ⟨t, hrun, -, hresults, hencoded⟩ :=
    run_presentations (is.map .insn) [] s (hp.trans (List.append_nil _).symm)
  rw [List.length_map] at hrun
  rw [flatMap_resultsOf_insns, List.append_nil] at hresults
  rw [flatMap_wordsOf_insns] at hencoded
  refine ⟨t, hrun, hencoded, ?_⟩
  have hdrop : t.encoded.drop s.encoded.length = is.map encode := by rw [hencoded, List.drop_left]
  rw [hdrop]
  obtain ⟨u, hrun', -, hresults', hencoded'⟩ :=
    wordSequenceEndState (is.map encode) (withPending ((is.map encode).map .word) t) [] (List.append_nil _).symm
  rw [List.length_map] at hrun'
  refine ⟨u, hrun', ?_, ?_⟩
  · rw [hresults', map_decode_map_encode hwf, withPending_results, hresults]
  · rw [hencoded', filter_accepts_map_encode, withPending_encoded]

/-! ### Single steps (R106, R208, R209, D17) -/

/-- Settles O47: with nothing pending the step is idle, and otherwise it takes the oldest presentation off the list. -/
theorem stepNeverStops : Obligations.StepNeverStops := by
  intro s
  cases hp : s.pending with
  | nil => exact ⟨s, step_of_idle hp, hp⟩
  | cons p rest => exact ⟨_, step_of_pending hp, afterPresentation_pending ..⟩

/-- Settles O53: every step is idle, by induction on their number. -/
theorem nothingHappensUntilPresented : Obligations.NothingHappensUntilPresented := by
  refine ⟨rfl, fun k s hp => ?_⟩
  induction k with
  | zero => rfl
  | succ k ih => rw [run_succ k (step_of_idle hp), ih]

/-- Settles O48: the completed state differs from the given one in the encoder's fields alone. -/
theorem instructionsChangeOnlyTheEncoderSide : Obligations.InstructionsChangeOnlyTheEncoderSide := by
  intro i s t h
  obtain rfl : encodedAs i (place i) s = t := by simpa [exec_eq_encodedAs] using h
  exact ⟨rfl, rfl, rfl, rfl, encode i, truncated i, rfl, rfl, decode_encode i⟩

/-- Settles O46: a step is its presentation, which each of the clauses writes out. -/
theorem stepMakesOnePresentation : Obligations.StepMakesOnePresentation :=
  ⟨fun _ _ _ hp => step_of_pending hp, fun _ _ _ hp => step_of_pending hp,
    fun _ _ _ _ _ _ _ hp => step_of_pending hp, fun _ hp => step_of_idle hp⟩

theorem step_of_accepted_word {s : State} {w : Word} {rest : List Presentation} {i : Instr}
    (hp : s.pending = .word w :: rest) (hd : decode w = .ok i) :
    step s = exec i (acceptWord w i (withPending rest s)) := by simp only [step, hp, hd]

/-- Settles O43: the state handed to the instruction is the one that accepting the word leaves. -/
theorem stepRunsDecodedInstruction : Obligations.StepRunsDecodedInstruction := by
  intro s w rest i hp hd
  refine ⟨acceptWord w i (withPending rest s), step_of_accepted_word hp hd, ?_⟩
  simp only [acceptWord_eq, deliverResult_pending, deliverResult_dec, deliverResult_results, deliverResult_enc,
    deliverResult_fmForward, deliverResult_encoded, deliverResult_fmReverse, driveReverse_pending,
    driveReverse_results, driveReverse_enc, driveReverse_fmForward, driveReverse_encoded, withPending_pending,
    withPending_results, withPending_enc, withPending_fmForward, withPending_encoded, true_and]
  split
  · next p hop => rw [driveReverse_fmReverse_of_ri hop, hd]
  · next hop => rw [driveReverse_of_not_ri hop, withPending_fmReverse]

theorem decode_of_decodeTableWord {nbits w : Nat} {i : Instr} (h : decodeTableWord nbits w = some i) :
    decode (wordOfBits nbits w) = .ok i := by
  unfold decodeTableWord at h
  split at h
  · next j hj => rw [hj, Option.some.inj h]
  · cases h

/-- Settles O44: the word put first is the oldest presentation, so the step runs what it decodes to. -/
theorem fetchedWordRunsNext : Obligations.FetchedWordRunsNext := by
  intro s nbits w i h
  obtain ⟨u, hstep, hpending, hdec, -⟩ :=
    stepRunsDecodedInstruction (s.withFetchWord nbits w) _ s.pending i rfl (decode_of_decodeTableWord h)
  exact ⟨u, hstep, hpending, hdec⟩

/-- Settles O45: raising the error changes the decoder's ports and record, and for a register-immediate word the reverse
multiplexer's ports. -/
theorem decodeErrorIsAReturnedValue : Obligations.DecodeErrorIsAReturnedValue := by
  intro s w rest e hp hd
  rw [step_of_pending hp, afterPresentation, afterWord_of_err hd, raiseError_eq]
  obtain ⟨p, hop, heq⟩ | ⟨hop, heq⟩ := driveReverse_eq w (withPending rest s)
  · have hresult := (decode_of_opcodeOf_ri hop).symm.trans hd
    rw [heq, hop]
    simp only [presentReverse, hresult]
    rfl
  · rw [heq]
    split
    · next p hp => exact absurd hp (hop p)
    · rfl

theorem afterWord_enc_congr {s s' : State} (w : Word) (h : s.enc = s'.enc) :
    (afterWord w s).enc = (afterWord w s').enc := by
  cases hd : decode w with
  | ok i => simp [afterWord_of_ok hd]
  | err e => simpa [afterWord_of_err hd, raiseError_eq] using h

theorem afterWord_fmForward_congr {s s' : State} (w : Word) (h : s.fmForward = s'.fmForward) :
    (afterWord w s).fmForward = (afterWord w s').fmForward := by
  cases hd : decode w with
  | ok i => simp [afterWord_of_ok hd]
  | err e => simpa [afterWord_of_err hd, raiseError_eq] using h

theorem step_of_word {s : State} {w : Word} {rest : List Presentation} (h : s.pending = .word w :: rest) :
    step s = .next (afterWord w (withPending rest s)) := step_of_pending h

theorem run_two_words (s : State) (v w : Word) (rest : List Presentation) :
    run 2 (withPending (.word v :: .word w :: rest) s) =
      .next (afterWord w (withPending rest (afterWord v (withPending (.word w :: rest) s)))) :=
  (run_succ 1 (step_of_word rfl)).trans (run_succ 0 (step_of_word (afterWord_pending ..)))

/-- Settles O50: the error leaves the encoder's side as it was, and the second word drives the decoder's ports again. -/
theorem errorsLeaveNoTrace : Obligations.ErrorsLeaveNoTrace := by
  intro s bad w rest e hbad
  refine ⟨_, afterWord w (withPending rest s), run_two_words s bad w rest, run_succ 0 (step_of_word rfl),
    ?_, ?_, ?_, ?_, ?_⟩
  · simp
  · exact afterWord_enc_congr w (by simp [afterWord_of_err hbad, raiseError_eq])
  · exact afterWord_fmForward_congr w (by simp [afterWord_of_err hbad, raiseError_eq])
  · simp [accepts, hbad]
  · simp

end Sys2Proof.Machine

/-! ## The register-immediate family and the seven other register-register and jump rules (R142 to R147, R160 to R168, R192) -/

namespace Sys2Proof.Machine

/-! ### Match and mask of the register-immediate family (R80) -/

/-- The mask over one slot: all ones where the variant must hold zero there (R71). -/
def slotMask (p : RiOpcode) (x : Slot) : BitVec 4 := if x ∈ unusedSlots p then BitVec.allOnes 4 else 0

/-- The mask of a register-immediate opcode: the opcode field and the unused slots (R80). -/
def riMask (p : RiOpcode) : Word :=
  pack (.slotted (BitVec.allOnes 6) (slotMask p .rd) (slotMask p .rs1) (slotMask p .rs2) 0)

/-- The match value of a register-immediate opcode: its opcode over zero fields (R80). -/
def riMatch (p : RiOpcode) : Word := pack (.slotted (opcodeValue (.ri p)) 0 0 0 0)

theorem and_slotMask_eq_zero_iff (p : RiOpcode) (x : Slot) (v : BitVec 4) :
    v &&& slotMask p x = 0#4 ↔ (x ∈ unusedSlots p → v = 0#4) := by
  unfold slotMask
  split
  · next hx => rw [BitVec.and_allOnes, imp_iff_right hx]
  · next hx => simp [hx]

theorem forall_slot_iff (P : Slot → Prop) : (∀ x, P x) ↔ P .rd ∧ P .rs1 ∧ P .rs2 :=
  ⟨fun h => ⟨h _, h _, h _⟩, fun ⟨hrd, hrs1, hrs2⟩ x => by cases x <;> assumption⟩

/-- A word matches the row of a register-immediate opcode when it has that opcode over zero unused slots. -/
theorem and_riMask_eq_riMatch_iff (p : RiOpcode) (w : Word) :
    w &&& riMask p = riMatch p ↔
      opcodeField w = opcodeValue (.ri p) ∧ ∀ x ∈ unusedSlots p, slotOf x w = 0 := by
  have hand : w &&& riMask p = pack (.slotted (opcodeField w) (rdSlot w &&& slotMask p .rd)
      (rs1Slot w &&& slotMask p .rs1) (rs2Slot w &&& slotMask p .rs2) 0) := by
    rw [← pack_slotted_fields w, riMask, pack_slotted_and, BitVec.and_allOnes, pack_slotted_fields]
    simp
  rw [hand, riMatch, eq_pack_slotted_iff, forall_slot_iff]
  simp [slotOf, and_slotMask_eq_zero_iff]

/-! ### The decoder on a register-immediate word (R112) -/

theorem opcodeOf_of_opcodeField {w : Word} {p : Opcode} (h : opcodeField w = opcodeValue p) :
    opcodeOf (opcodeField w) = some p := by rw [h, opcodeOf_opcodeValue]

theorem decode_ri_of_unused_zero {w : Word} {p : RiOpcode} (hop : opcodeField w = opcodeValue (.ri p))
    (hz : ∀ x ∈ unusedSlots p, slotOf x w = 0) :
    decode w = .ok (unplace p (rdSlot w) (rs1Slot w) (rs2Slot w) (lowField w)) := by
  rw [decode_of_opcodeOf_ri (opcodeOf_of_opcodeField hop), fmResult_eq, (zeroSlotError_eq_none_iff p w).mpr hz]
  rfl

/-- The words of a register-immediate opcode that decode are those that match its row. -/
theorem and_riMask_of_decode_ok {w : Word} {i : Instr} {p : RiOpcode} (h : decode w = .ok i)
    (hp : Laws.OpcodeField.opcodeFor i = .ri p) : w &&& riMask p = riMatch p := by
  obtain rfl : encode i = w := encode_of_decode_ok h
  refine (and_riMask_eq_riMatch_iff ..).mpr ⟨?_, fun x hx => slotOf_encode_of_unused hp hx⟩
  rw [opcodeField_encode i, hp]

/-! ### Two registers and an immediate (R161 to R167) -/

/-- The Instructions of opcode `p` are made by `mk` from two registers, read from the slots `x` and `y`, and an
immediate; the slot `z` is unused (R70). -/
structure TwoRegisterForm (p : RiOpcode) (mk : Reg → Reg → Imm → Instr) (x y z : Slot) : Prop where
  unused : unusedSlots p = [z]
  unplace_eq : ∀ w : Word, unplace p (rdSlot w) (rs1Slot w) (rs2Slot w) (lowField w) =
    mk (registerOf (slotOf x w)) (registerOf (slotOf y w)) (sextImm (lowField w))
  opcodeFor_eq : ∀ a b v, Laws.OpcodeField.opcodeFor (mk a b v) = .ri p

namespace TwoRegisterForm

theorem addi : TwoRegisterForm .addi .addi .rd .rs1 .rs2 := ⟨rfl, fun _ => rfl, fun _ _ _ => rfl⟩
theorem load : TwoRegisterForm .load .load .rd .rs1 .rs2 := ⟨rfl, fun _ => rfl, fun _ _ _ => rfl⟩
theorem store : TwoRegisterForm .store .store .rd .rs1 .rs2 := ⟨rfl, fun _ => rfl, fun _ _ _ => rfl⟩
theorem beq : TwoRegisterForm .beq .beq .rs1 .rs2 .rd := ⟨rfl, fun _ => rfl, fun _ _ _ => rfl⟩
theorem bne : TwoRegisterForm .bne .bne .rs1 .rs2 .rd := ⟨rfl, fun _ => rfl, fun _ _ _ => rfl⟩
theorem blt : TwoRegisterForm .blt .blt .rs1 .rs2 .rd := ⟨rfl, fun _ => rfl, fun _ _ _ => rfl⟩
theorem bge : TwoRegisterForm .bge .bge .rs1 .rs2 .rd := ⟨rfl, fun _ => rfl, fun _ _ _ => rfl⟩

variable {p : RiOpcode} {mk : Reg → Reg → Imm → Instr} {x y z : Slot} {w : Word}

/-- Decode line of R161 to R167. -/
theorem decode_ok (form : TwoRegisterForm p mk x y z) (hop : opcodeField w = opcodeValue (.ri p))
    (hz : slotOf z w = 0) :
    decode w = .ok (mk (registerOf (slotOf x w)) (registerOf (slotOf y w)) ((lowField w).signExtend 16)) := by
  rw [decode_ri_of_unused_zero hop (by simpa [form.unused] using hz), form.unplace_eq, sextImm_eq_signExtend]

/-- The one error of R161 to R167. -/
theorem decode_err (form : TwoRegisterForm p mk x y z) (hop : opcodeField w = opcodeValue (.ri p))
    (hz : slotOf z w ≠ 0) : decode w = .err (.reservedField z (slotOf z w)) := by
  refine decode_of_zeroSlotError (opcodeOf_of_opcodeField hop) ?_
  rw [zeroSlotError_eq_findSome?, form.unused, List.findSome?_singleton]
  exact (requireZero_eq_some ..).mpr ⟨hz, rfl⟩

/-- Match and mask of R161 to R167. -/
theorem and_riMask_eq_iff (form : TwoRegisterForm p mk x y z) (w : Word) :
    w &&& riMask p = riMatch p ↔ ∃ a b v, decode w = .ok (mk a b v) := by
  constructor
  · intro h
    obtain ⟨hop, hz⟩ := (and_riMask_eq_riMatch_iff p w).mp h
    exact ⟨_, _, _, form.decode_ok hop (hz z (by simp [form.unused]))⟩
  · rintro ⟨a, b, v, h⟩
    exact and_riMask_of_decode_ok h (form.opcodeFor_eq a b v)

end TwoRegisterForm

/-- Settles O13: the two-register form with the rs2-slot unused, at `Addi`. -/
theorem addiEncodesAndDecodes : Obligations.AddiEncodesAndDecodes :=
  ⟨fun rd rs1 imm => exec_eq_encodedAs (.addi rd rs1 imm), fun _ => TwoRegisterForm.addi.decode_ok,
    fun _ => TwoRegisterForm.addi.decode_err, TwoRegisterForm.addi.and_riMask_eq_iff, by decide, by decide⟩

/-- Settles O14: the two-register form with the rs2-slot unused, at `Load`. -/
theorem loadEncodesAndDecodes : Obligations.LoadEncodesAndDecodes :=
  ⟨fun rd base offset => exec_eq_encodedAs (.load rd base offset), fun _ => TwoRegisterForm.load.decode_ok,
    fun _ => TwoRegisterForm.load.decode_err, TwoRegisterForm.load.and_riMask_eq_iff, by decide, by decide⟩

/-- Settles O15: the two-register form with the rs2-slot unused, at `Store`, whose source stands in the rd-slot. -/
theorem storeEncodesAndDecodes : Obligations.StoreEncodesAndDecodes :=
  ⟨fun src base offset => exec_eq_encodedAs (.store src base offset), fun _ => TwoRegisterForm.store.decode_ok,
    fun _ => TwoRegisterForm.store.decode_err, TwoRegisterForm.store.and_riMask_eq_iff, by decide, by decide⟩

/-- Settles O16: the two-register form with the rd-slot unused, at `Beq`. -/
theorem beqEncodesAndDecodes : Obligations.BeqEncodesAndDecodes :=
  ⟨fun rs1 rs2 offset => exec_eq_encodedAs (.beq rs1 rs2 offset), fun _ => TwoRegisterForm.beq.decode_ok,
    fun _ => TwoRegisterForm.beq.decode_err, TwoRegisterForm.beq.and_riMask_eq_iff, by decide, by decide⟩

/-- Settles O17: the two-register form with the rd-slot unused, at `Bne`. -/
theorem bneEncodesAndDecodes : Obligations.BneEncodesAndDecodes :=
  ⟨fun rs1 rs2 offset => exec_eq_encodedAs (.bne rs1 rs2 offset), fun _ => TwoRegisterForm.bne.decode_ok,
    fun _ => TwoRegisterForm.bne.decode_err, TwoRegisterForm.bne.and_riMask_eq_iff, by decide, by decide⟩

/-- Settles O18: the two-register form with the rd-slot unused, at `Blt`. -/
theorem bltEncodesAndDecodes : Obligations.BltEncodesAndDecodes :=
  ⟨fun rs1 rs2 offset => exec_eq_encodedAs (.blt rs1 rs2 offset), fun _ => TwoRegisterForm.blt.decode_ok,
    fun _ => TwoRegisterForm.blt.decode_err, TwoRegisterForm.blt.and_riMask_eq_iff, by decide, by decide⟩

/-- Settles O19: the two-register form with the rd-slot unused, at `Bge`. -/
theorem bgeEncodesAndDecodes : Obligations.BgeEncodesAndDecodes :=
  ⟨fun rs1 rs2 offset => exec_eq_encodedAs (.bge rs1 rs2 offset), fun _ => TwoRegisterForm.bge.decode_ok,
    fun _ => TwoRegisterForm.bge.decode_err, TwoRegisterForm.bge.and_riMask_eq_iff, by decide, by decide⟩

/-! ### No register (R168) -/

/-- Decode line of R168: the three checks in their order, then the immediate. -/
theorem decode_ecall {w : Word} (hop : opcodeField w = 0x0A) :
    decode w =
      if rdSlot w ≠ 0 then .err (.reservedField .rd (rdSlot w))
      else if rs1Slot w ≠ 0 then .err (.reservedField .rs1 (rs1Slot w))
      else if rs2Slot w ≠ 0 then .err (.reservedField .rs2 (rs2Slot w))
      else .ok (.ecall ((lowField w).signExtend 16)) := by
  have hri : opcodeOf (opcodeField w) = some (.ri .ecall) := opcodeOf_of_opcodeField hop
  rw [decode_of_opcodeOf_ri hri, fmResult_eq, ← sextImm_eq_signExtend]
  split_ifs <;> simp_all [zeroSlotError, requireZero, unplace]

/-- Match and mask of R168. -/
theorem and_riMask_ecall_eq_iff (w : Word) :
    w &&& riMask .ecall = riMatch .ecall ↔ ∃ imm, decode w = .ok (.ecall imm) := by
  constructor
  · intro h
    obtain ⟨hop, hz⟩ := (and_riMask_eq_riMatch_iff .ecall w).mp h
    exact ⟨_, decode_ri_of_unused_zero hop hz⟩
  · rintro ⟨imm, h⟩
    exact and_riMask_of_decode_ok h rfl

/-- Settles O20: the opcode's completion, its three checks and its mask, then the rule's words. -/
theorem ecallEncodesAndDecodes : Obligations.EcallEncodesAndDecodes :=
  ⟨fun imm => exec_eq_encodedAs (.ecall imm), fun _ => decode_ecall, and_riMask_ecall_eq_iff,
    by decide, by decide, by decide, by decide⟩

/-! ### The other register-register operations (R142 to R147) -/

/-- Settles O7: the family's rule at the function code of `Sub`. -/
theorem subEncodesAndDecodes : Obligations.SubEncodesAndDecodes :=
  ⟨fun rd rs1 rs2 => exec_eq_encodedAs (.sub rd rs1 rs2), fun _ => decode_rr (op := .sub),
    fun w => and_rrMask_eq_functValue_iff w .sub, by decide⟩

/-- Settles O8: the family's rule at the function code of `And`. -/
theorem andEncodesAndDecodes : Obligations.AndEncodesAndDecodes :=
  ⟨fun rd rs1 rs2 => exec_eq_encodedAs (.and rd rs1 rs2), fun _ => decode_rr (op := .and),
    fun w => and_rrMask_eq_functValue_iff w .and, by decide⟩

/-- Settles O9: the family's rule at the function code of `Or`. -/
theorem orEncodesAndDecodes : Obligations.OrEncodesAndDecodes :=
  ⟨fun rd rs1 rs2 => exec_eq_encodedAs (.or rd rs1 rs2), fun _ => decode_rr (op := .or),
    fun w => and_rrMask_eq_functValue_iff w .or, by decide⟩

/-- Settles O10: the family's rule at the function code of `Xor`. -/
theorem xorEncodesAndDecodes : Obligations.XorEncodesAndDecodes :=
  ⟨fun rd rs1 rs2 => exec_eq_encodedAs (.xor rd rs1 rs2), fun _ => decode_rr (op := .xor),
    fun w => and_rrMask_eq_functValue_iff w .xor, by decide⟩

/-- Settles O11: the family's rule at the function code of `Shl`. -/
theorem shlEncodesAndDecodes : Obligations.ShlEncodesAndDecodes :=
  ⟨fun rd rs1 rs2 => exec_eq_encodedAs (.shl rd rs1 rs2), fun _ => decode_rr (op := .shl),
    fun w => and_rrMask_eq_functValue_iff w .shl, by decide⟩

/-- Settles O12: the family's rule at the function code of `Shr`. -/
theorem shrEncodesAndDecodes : Obligations.ShrEncodesAndDecodes :=
  ⟨fun rd rs1 rs2 => exec_eq_encodedAs (.shr rd rs1 rs2), fun _ => decode_rr (op := .shr),
    fun w => and_rrMask_eq_functValue_iff w .shr, by decide⟩

/-! ### The jump path (R113, R192) -/

/-- Decode line of R191, by the identifier of the opcode. -/
theorem decode_of_opcodeOf_jal {w : Word} (h : opcodeOf (opcodeField w) = some .jal) :
    decode w = .ok (.jal (sextJOff w)) := by simp only [decode, h]

/-- Decode line of R192, by the identifier of the opcode. -/
theorem decode_of_opcodeOf_jump {w : Word} (h : opcodeOf (opcodeField w) = some .jump) :
    decode w = .ok (.jump (sextJOff w)) := by simp only [decode, h]

/-- Settles O24: the path has no check, and the shift method is sign extension. -/
theorem jumpPathSignExtendsByShifting : Obligations.JumpPathSignExtendsByShifting := by
  refine ⟨fun w hop => ?_, fun w hop => ?_, fun low => ⟨rfl, sextImm_eq_signExtend low⟩⟩
  · rw [← sextJOff_eq_signExtend]
    exact ⟨decode_of_opcodeOf_jal hop, decode_of_opcodeOf_jal hop⟩
  · rw [← sextJOff_eq_signExtend]
    exact ⟨decode_of_opcodeOf_jump hop, decode_of_opcodeOf_jump hop⟩

theorem decode_jump {w : Word} (hop : opcodeField w = 0x09) :
    decode w = .ok (.jump ((offField w).signExtend 32)) := by
  rw [← sextJOff_eq_signExtend]
  exact decode_of_opcodeOf_jump (opcodeOf_of_opcodeField hop)

/-- Match and mask of `Jump`: the match value is its opcode over a zero offset. -/
theorem and_jumpMask_eq_jump_iff (w : Word) :
    w &&& 0xFC000000 = 0x24000000 ↔ ∃ offset, decode w = .ok (.jump offset) := by
  refine (and_jumpMask_eq_iff w 0x09).trans ⟨fun hop => ⟨_, decode_jump hop⟩, ?_⟩
  rintro ⟨offset, h⟩
  exact (opcodeValue_of_opcodeOf (opcodeOf_of_decode_ok h)).symm

/-- The two words of one offset differ in the opcode, so in bit 26 only. -/
theorem encode_jump_xor_encode_jal (offset : JOff) :
    encode (.jump offset) ^^^ encode (.jal offset) = 0x04000000 :=
  calc encode (.jump offset) ^^^ encode (.jal offset)
      = pack (.long (0x09 ^^^ 0x08) (truncJOff offset ^^^ truncJOff offset)) := by
          simp only [encode, place, pack, ← BitVec.xor_append]
    _ = 0x04000000 := by rw [BitVec.xor_self]; rfl

/-- Settles O23: the J word's completion, the path and the mask of opcode 0x09, the difference from `Jal`, two words. -/
theorem jumpEncodesAndDecodes : Obligations.JumpEncodesAndDecodes :=
  ⟨fun offset => exec_eq_encodedAs (.jump offset), fun _ => decode_jump, and_jumpMask_eq_jump_iff,
    encode_jump_xor_encode_jal, by decide, by decide⟩

end Sys2Proof.Machine

/-! ## The accepted words: rows, census, bijection; the checks and the error signals (R71, R77, R80, R116, R119, R205) -/

namespace Sys2Proof.Machine

/-! ### The identifiers of the catalogs (R64, R66) -/

/-- The operations of R66 in the order of their function codes. -/
def rrOps : List RrOp := [.add, .sub, .and, .or, .xor, .shl, .shr]

/-- The register-immediate opcodes of R64. -/
def riOpcodes : List RiOpcode := [.addi, .load, .store, .beq, .bne, .blt, .bge, .ecall]

/-- The eleven opcodes of R64, by decoding path. -/
def opcodes : List Opcode := .rr :: riOpcodes.map .ri ++ [.jal, .jump]

theorem mem_rrOps (op : RrOp) : op ∈ rrOps := by cases op <;> decide

theorem mem_riOpcodes (p : RiOpcode) : p ∈ riOpcodes := by cases p <;> decide

theorem mem_opcodes : ∀ p : Opcode, p ∈ opcodes
  | .rr => by decide
  | .ri p => List.mem_append_left _ (List.mem_cons_of_mem _ (List.mem_map_of_mem (mem_riOpcodes p)))
  | .jal => by decide
  | .jump => by decide

/-! ### When a word is accepted -/

theorem accepts_eq_false_iff (w : Word) : accepts w = false ↔ ∃ e, decode w = .err e := by
  unfold accepts
  cases decode w <;> simp

theorem accepts_iff_of_rr {w : Word} (h : opcodeOf (opcodeField w) = some .rr) :
    accepts w = true ↔ ∃ op, lowField w = functValue op := by
  have hop : opcodeField w = 0x00 := (opcodeValue_of_opcodeOf h).symm
  constructor
  · intro hacc
    obtain ⟨i, hi⟩ := (accepts_iff w).mp hacc
    rw [decode_of_opcodeField_eq_zero hop] at hi
    cases hf : functOf (lowField w) with
    | none => simp [decodeRr, hf] at hi
    | some op => exact ⟨op, (functValue_of_functOf hf).symm⟩
  · rintro ⟨op, hf⟩
    exact (accepts_iff w).mpr ⟨_, decode_rr hop hf⟩

/-- A register-immediate word decodes with the error of the first failing check, if any. -/
theorem decode_ri_eq_err_iff {w : Word} {p : RiOpcode} (h : opcodeOf (opcodeField w) = some (.ri p))
    (e : DecodeError) :
    decode w = .err e ↔ zeroSlotError p (rdSlot w) (rs1Slot w) (rs2Slot w) = some e := by
  rw [decode_of_opcodeOf_ri h, fmResult_eq]
  cases zeroSlotError p (rdSlot w) (rs1Slot w) (rs2Slot w) <;> simp

theorem accepts_iff_of_ri {w : Word} {p : RiOpcode} (h : opcodeOf (opcodeField w) = some (.ri p)) :
    accepts w = true ↔ ∀ x ∈ unusedSlots p, slotOf x w = 0 := by
  rw [← zeroSlotError_eq_none_iff, ← Bool.not_eq_false, accepts_eq_false_iff, Option.eq_none_iff_forall_ne_some]
  simp only [decode_ri_eq_err_iff h, not_exists, ne_eq]

theorem accepts_of_jal {w : Word} (h : opcodeOf (opcodeField w) = some .jal) : accepts w = true :=
  (accepts_iff w).mpr ⟨_, decode_of_opcodeOf_jal h⟩

theorem accepts_of_jump {w : Word} (h : opcodeOf (opcodeField w) = some .jump) : accepts w = true :=
  (accepts_iff w).mpr ⟨_, decode_of_opcodeOf_jump h⟩

/-! ### The census (R77) -/

/-- The function codes of R66. -/
def functCodes : Finset (BitVec 14) := (rrOps.map functValue).toFinset

/-- What a slot may hold under a register-immediate opcode: 0 if the variant does not use it, else anything (R71). -/
def slotValues (p : RiOpcode) (x : Slot) : Finset (BitVec 4) := if x ∈ unusedSlots p then {0} else Finset.univ

/-- The fields below the opcode with which a word of each opcode is accepted: rd-slot, rs1-slot, rs2-slot, low field. -/
def acceptedOperands : Opcode → Finset (BitVec 4 × BitVec 4 × BitVec 4 × BitVec 14)
  | .rr => Finset.univ ×ˢ Finset.univ ×ˢ Finset.univ ×ˢ functCodes
  | .ri p => slotValues p .rd ×ˢ slotValues p .rs1 ×ˢ slotValues p .rs2 ×ˢ Finset.univ
  | .jal | .jump => Finset.univ

/-- How many there are, by opcode (R77). -/
def operandCount : Opcode → Nat
  | .rr => 7 * 2 ^ 12
  | .ri .ecall => 2 ^ 14
  | .ri _ => 2 ^ 22
  | .jal | .jump => 2 ^ 26

/-- The word of an opcode over the given fields. -/
def wordOf (x : (_ : Opcode) × (BitVec 4 × BitVec 4 × BitVec 4 × BitVec 14)) : Word :=
  pack (.slotted (opcodeValue x.1) x.2.1 x.2.2.1 x.2.2.2.1 x.2.2.2.2)

theorem wordOf_injective : Function.Injective wordOf := by
  rintro ⟨p, a, b, c, v⟩ ⟨p', a', b', c', v'⟩ h
  obtain ⟨hop, ha, hb, hc, hv⟩ := (eq_pack_slotted_iff _ _ _ _ _ _).mp h
  simp only [wordOf, opcodeField_pack_slotted, rdSlot_pack_slotted, rs1Slot_pack_slotted, rs2Slot_pack_slotted,
    lowField_pack_slotted] at hop ha hb hc hv
  obtain rfl : p = p' := by simpa using congrArg opcodeOf hop
  rw [ha, hb, hc, hv]

theorem mem_functCodes (f : BitVec 14) : f ∈ functCodes ↔ ∃ op, f = functValue op := by
  simp [functCodes, mem_rrOps, eq_comm]

theorem mem_slotValues (p : RiOpcode) (x : Slot) (v : BitVec 4) :
    v ∈ slotValues p x ↔ (x ∈ unusedSlots p → v = 0) := by
  unfold slotValues
  split <;> simp [*]

/-- The operands of an opcode are those with which its word is accepted. -/
theorem mem_acceptedOperands_iff {w : Word} {p : Opcode} (h : opcodeOf (opcodeField w) = some p) :
    (rdSlot w, rs1Slot w, rs2Slot w, lowField w) ∈ acceptedOperands p ↔ accepts w = true := by
  cases p with
  | rr => simp [acceptedOperands, accepts_iff_of_rr h, mem_functCodes]
  | ri p => simp [acceptedOperands, accepts_iff_of_ri h, mem_slotValues, forall_slot_iff, slotOf]
  | jal => simp [acceptedOperands, accepts_of_jal h]
  | jump => simp [acceptedOperands, accepts_of_jump h]

theorem exists_opcodeOf_of_accepts {w : Word} (h : accepts w = true) : ∃ p, opcodeOf (opcodeField w) = some p :=
  have ⟨_, hi⟩ := (accepts_iff w).mp h
  ⟨_, opcodeOf_of_decode_ok hi⟩

/-- The accepted words are those of the eleven opcodes over their operands. -/
theorem filter_accepts_eq_image :
    (Finset.univ : Finset Word).filter (fun w => accepts w = true) =
      (opcodes.toFinset.sigma acceptedOperands).image wordOf := by
  ext w
  simp only [Finset.mem_filter, Finset.mem_univ, true_and, Finset.mem_image, Finset.mem_sigma,
    List.mem_toFinset, mem_opcodes]
  constructor
  · intro hacc
    obtain ⟨p, hp⟩ := exists_opcodeOf_of_accepts hacc
    refine ⟨⟨p, rdSlot w, rs1Slot w, rs2Slot w, lowField w⟩, (mem_acceptedOperands_iff hp).mpr hacc, ?_⟩
    rw [wordOf, opcodeValue_of_opcodeOf hp, pack_slotted_fields]
  · rintro ⟨⟨p, a, b, c, v⟩, hmem, rfl⟩
    exact (mem_acceptedOperands_iff (p := p) (by simp [wordOf])).mp (by simpa [wordOf] using hmem)

theorem fintypeCard_bitVec (n : Nat) : Fintype.card (BitVec n) = 2 ^ n := by
  rw [← FinEnum.card_eq_fintypeCard, FinEnum.card_bitVec]

theorem card_acceptedOperands (p : Opcode) : (acceptedOperands p).card = operandCount p := by
  have hfuncts : functCodes.card = 7 := by decide
  rcases p with _ | p | _ | _
  · simp [acceptedOperands, operandCount, hfuncts, fintypeCard_bitVec]
  · cases p <;> simp [acceptedOperands, operandCount, slotValues, unusedSlots, fintypeCard_bitVec]
  · simp [acceptedOperands, operandCount, ← Finset.univ_product_univ, fintypeCard_bitVec]
  · simp [acceptedOperands, operandCount, ← Finset.univ_product_univ, fintypeCard_bitVec]

/-- Settles O38: the words of different opcodes and operands differ, so the count is the sum over the opcodes. -/
theorem validWordCensus : Obligations.ValidWordCensus := by
  unfold Obligations.ValidWordCensus
  calc ((Finset.univ : Finset Word).filter fun w => accepts w = true).card
      = ((opcodes.toFinset.sigma acceptedOperands).image wordOf).card := by rw [filter_accepts_eq_image]
    _ = ∑ p ∈ opcodes.toFinset, operandCount p := by
        rw [Finset.card_image_of_injective _ wordOf_injective, Finset.card_sigma]
        exact Finset.sum_congr rfl fun p _ => card_acceptedOperands p
    _ = 163622912 := by decide

/-! ### The rows of the opcode table (R80) -/

/-- Match value and mask of each row: register-register, register-immediate, jump. -/
def opcodeRows : List (Word × Word) :=
  rrOps.map (fun op => (pack (.slotted 0x00 0 0 0 (functValue op)), 0xFC003FFF)) ++
    riOpcodes.map (fun p => (riMatch p, riMask p)) ++
    [(pack (.long 0x08 0), 0xFC000000), (pack (.long 0x09 0), 0xFC000000)]

theorem exists_mem_opcodeRows_iff (w : Word) :
    (∃ r ∈ opcodeRows, w &&& r.2 = r.1) ↔
      (∃ op, w &&& 0xFC003FFF = pack (.slotted 0x00 0 0 0 (functValue op))) ∨
      (∃ p, w &&& riMask p = riMatch p) ∨
      w &&& 0xFC000000 = pack (.long 0x08 0) ∨ w &&& 0xFC000000 = pack (.long 0x09 0) := by
  simp [opcodeRows, or_and_right, exists_or, mem_rrOps, mem_riOpcodes]

/-- R80: each decoding path accepts the words of its rows. -/
theorem accepts_iff_exists_row (w : Word) : accepts w = true ↔ ∃ r ∈ opcodeRows, w &&& r.2 = r.1 := by
  rw [exists_mem_opcodeRows_iff, accepts_iff]
  constructor
  · rintro ⟨i, h⟩
    obtain ⟨op, -, -, rfl⟩ | ⟨p, -, -, rfl⟩ | ⟨-, rfl⟩ | ⟨-, rfl⟩ := decode_ok_cases h
    · exact .inl ⟨op, (and_rrMask_eq_functValue_iff w op).mpr ⟨_, _, _, h⟩⟩
    · exact .inr (.inl ⟨p, and_riMask_of_decode_ok h (opcodeFor_unplace ..)⟩)
    · exact .inr (.inr (.inl ((and_jumpMask_eq_jal_iff w).mpr ⟨_, h⟩)))
    · exact .inr (.inr (.inr ((and_jumpMask_eq_jump_iff w).mpr ⟨_, h⟩)))
  · rintro (⟨op, h⟩ | ⟨p, h⟩ | h | h)
    · obtain ⟨rd, rs1, rs2, hd⟩ := (and_rrMask_eq_functValue_iff w op).mp h
      exact ⟨_, hd⟩
    · obtain ⟨hop, hz⟩ := (and_riMask_eq_riMatch_iff p w).mp h
      exact ⟨_, decode_ri_of_unused_zero hop hz⟩
    · obtain ⟨offset, hd⟩ := (and_jumpMask_eq_jal_iff w).mp h
      exact ⟨_, hd⟩
    · obtain ⟨offset, hd⟩ := (and_jumpMask_eq_jump_iff w).mp h
      exact ⟨_, hd⟩

/-- Two rows that a word matches agree where both masks look. -/
theorem and_eq_and_of_matches {w m v m' v' : Word} (h : w &&& m = v) (h' : w &&& m' = v') :
    v &&& m' = v' &&& m := by
  rw [← h, ← h', BitVec.and_assoc, BitVec.and_assoc, BitVec.and_comm m m']

theorem opcodeRows_disagree : opcodeRows.Pairwise fun r q => r.1 &&& q.2 ≠ q.1 &&& r.2 := by decide

/-- Settles O39: the rows disagree pairwise under both masks, and each decoding path accepts the words of its rows. -/
theorem acceptedExactlyWhenAnOpcodeRowMatches : Obligations.AcceptedExactlyWhenAnOpcodeRowMatches :=
  ⟨opcodeRows_disagree.imp fun hne _ ⟨hr, hq⟩ => hne (and_eq_and_of_matches hr hq), accepts_iff_exists_row⟩

/-! ### The bijection (R119) -/

theorem decode_eq_ok_iff (w : Word) (i : Instr) : decode w = .ok i ↔ WellFormed i ∧ w = encode i := by
  constructor
  · exact fun h => ⟨wellFormed_of_decode_ok h, (encode_of_decode_ok h).symm⟩
  · rintro ⟨hwf, rfl⟩
    exact decodeOfEncodeIsIdentity i hwf

theorem decode_ok_injective {w v : Word} {i : Instr} (hw : decode w = .ok i) (hv : decode v = .ok i) : w = v :=
  (encode_of_decode_ok hw).symm.trans (encode_of_decode_ok hv)

theorem xor_one_shiftLeft_ne (w : Word) (k : Fin 32) : w ^^^ (1#32 <<< k.val) ≠ w := by
  have hbit : 1#32 <<< k.val ≠ 0#32 := by revert k; decide
  simpa using hbit

/-- Settles O37: every part follows from the two inverse laws. -/
theorem codecIsABijectionOntoAcceptedWords : Obligations.CodecIsABijectionOntoAcceptedWords := by
  refine ⟨fun i j hi hj heq => ?_, fun w v i => decode_ok_injective, decode_eq_ok_iff, fun w => ?_,
    fun w i k hw hflip => xor_one_shiftLeft_ne w k (decode_ok_injective hflip hw)⟩
  · have hboth : Result.ok i = .ok j := by
      rw [← decodeOfEncodeIsIdentity i hi, heq, decodeOfEncodeIsIdentity j hj]
    exact Result.ok.inj hboth
  · simp only [accepts_iff, decode_eq_ok_iff, eq_comm (a := w)]

/-! ### The must-be-zero checks and the multiplexer's law (R112, R116, R203) -/

/-- A failing check, by the fields of its error. -/
theorem requireZero_eq_reservedField_iff (x field : Slot) (v value : BitVec 4) :
    requireZero x v = some (.reservedField field value) ↔ field = x ∧ value = v ∧ value ≠ 0 := by
  rw [requireZero_eq_some, DecodeError.reservedField.injEq]
  constructor
  · rintro ⟨hne, rfl, rfl⟩
    exact ⟨rfl, rfl, hne⟩
  · rintro ⟨rfl, rfl, hne⟩
    exact ⟨hne, rfl, rfl⟩

/-- Settles O31: acceptance is every check passing, and the error is that of the first to fail. -/
theorem unusedSlotsMustBeZero : Obligations.UnusedSlotsMustBeZero := by
  intro p w hop
  have hri : opcodeOf (opcodeField w) = some (.ri p) := opcodeOf_of_opcodeField hop
  refine ⟨?_, fun field value => ?_⟩
  · rw [accepts_iff_of_ri hri, forall_slot_iff]
    cases p <;> simp [unusedSlots, slotOf]
  · rw [decode_ri_eq_err_iff hri]
    cases p
    case addi | load | store | beq | bne | blt | bge => exact requireZero_eq_reservedField_iff ..
    case ecall =>
      simp only [zeroSlotError, Option.or_eq_some_iff, requireZero_eq_none, requireZero_eq_reservedField_iff]
      cases field <;> simp [and_comm, and_left_comm, and_assoc]

/-- Settles O40: the reverse multiplexer answers as the decoder does on the packed word, and words are canonical. -/
theorem reverseMultiplexerUndoesForward : Obligations.ReverseMultiplexerUndoesForward := by
  intro i op a b c low p hwf hplace hop
  obtain rfl := opcodeValue_of_opcodeOf hop
  have hencode : encode i = pack (.slotted (opcodeValue (.ri p)) a b c low) := congrArg pack hplace
  have hok : fmResult p a b c low = .ok i := by
    rw [← decode_pack_ri, ← hencode, decodeOfEncodeIsIdentity i hwf]
  refine ⟨?_, hok, fun a' b' c' => ⟨fun h => ?_, ?_⟩⟩
  · rw [fmResult_eq] at hok
    cases hz : zeroSlotError p a b c with
    | none => rfl
    | some e => rw [hz] at hok; cases hok
  · rw [← decode_pack_ri] at h
    have heq := (encode_of_decode_ok h).symm.trans hencode
    rw [eq_pack_slotted_iff] at heq
    simpa using heq
  · rintro ⟨rfl, rfl, rfl⟩
    exact hok

/-! ### The error signals (R205) -/

/-- Settles O41: each form of error has its own kind, and carries the field that raised it. -/
theorem errorSignalsOfRejectedWords : Obligations.ErrorSignalsOfRejectedWords := by
  intro w e free h
  rw [h]
  obtain ⟨-, rfl⟩ | ⟨-, rfl⟩ | ⟨p, x, -, -, rfl⟩ := decode_err_forms h
  · simp [decOk, errKind, errValue]
  · simp [decOk, errKind, errValue]
  · cases x <;> simp [decOk, errKind, errValue, errField, slotCode, slotOf]

/-! ### The catalogs and the signed fields (R101, R102, R121) -/

/-- Settles O2: the two inverse laws, the reserved values, and the table in order. -/
theorem opcodeCatalogAcceptsElevenValues : Obligations.OpcodeCatalogAcceptsElevenValues :=
  ⟨opcodeOf_opcodeValue, fun _ _ => opcodeValue_of_opcodeOf, opcodeOf_eq_none_iff, by decide⟩

/-- Settles O3: the two inverse laws, the reserved codes, and the table in order. -/
theorem functCatalogAcceptsSevenCodes : Obligations.FunctCatalogAcceptsSevenCodes := by
  refine ⟨functOf_functValue, fun _ _ => functValue_of_functOf, fun f => ?_, by decide⟩
  rw [functOf_eq_none_iff]
  omega

/-- Truncation keeps the value of an immediate up to the field's modulus. -/
theorem toInt_truncImm (v : Imm) : (truncImm v).toInt = v.toInt.bmod (2 ^ 14) := by
  rw [truncImm_eq_setWidth, BitVec.toInt_setWidth, BitVec.toInt_eq_toNat_bmod,
    Int.bmod_bmod_of_dvd (by decide)]

theorem toInt_truncImm_eq_iff (v : Imm) : (truncImm v).toInt = v.toInt ↔ immInRange v = true := by
  refine ⟨fun h => ?_, toInt_truncImm_of_immInRange⟩
  have hlo := BitVec.le_toInt (truncImm v)
  have hhi := BitVec.toInt_lt (x := truncImm v)
  rw [immInRange, decide_eq_true_eq]
  omega

theorem toInt_truncJOff_eq_iff (o : JOff) : (truncJOff o).toInt = o.toInt ↔ joffInRange o = true := by
  refine ⟨fun h => ?_, toInt_truncJOff_of_joffInRange⟩
  have hlo := BitVec.le_toInt (truncJOff o)
  have hhi := BitVec.toInt_lt (x := truncJOff o)
  rw [joffInRange, decide_eq_true_eq]
  omega

/-- Settles O4: extension is sign extension, and truncation is balanced remainder by the field's modulus. -/
theorem signedFieldsTruncateAndExtend : Obligations.SignedFieldsTruncateAndExtend := by
  refine ⟨fun f => ⟨truncImm_sextImm f, ?_⟩, toInt_truncImm_eq_iff, fun v => ?_,
    fun w => ⟨truncJOff_sextJOff w, ?_⟩, toInt_truncJOff_eq_iff, fun o => ?_⟩
  · rw [sextImm_eq_signExtend, BitVec.toInt_signExtend_of_le (by decide)]
  · rw [toInt_truncImm]
    exact Int.dvd_self_sub_bmod
  · rw [sextJOff_eq_signExtend, BitVec.toInt_signExtend_of_le (by decide)]
  · rw [toInt_truncJOff]
    exact Int.dvd_self_sub_bmod

/-- Settles O42: the decoder evaluated on the eight words. -/
theorem writtenOutWordsDecode : Obligations.WrittenOutWordsDecode := by
  unfold Obligations.WrittenOutWordsDecode
  decide

end Sys2Proof.Machine
